-- ==== Sys2Proof/Word.lean ====
section
/-! DEFINITION. The widths of the machine's values (00_scope.md R5, R9): every value is an unsigned integer of a stated width. -/

namespace Sys2Proof

/-- Contents of a general register, a timer, a memory byte, a display column byte (R5, R21). -/
abbrev Byte := BitVec 8

/-- An opcode, and the contents of `pc`, `I`, a call-stack entry, the keypad mask (R5, R23, R24, R25, R31). -/
abbrev Word := BitVec 16

/-- One nibble of an opcode (R12, R61). -/
abbrev Nibble := BitVec 4

/-- The address immediate `nnn` (R61). -/
abbrev Imm12 := BitVec 12

/-- The index of a general register, 0..15 (R21). -/
abbrev Reg := Fin 16

/-- VF, register index 15, the flag register (R12, R22). -/
abbrev VF : Reg := 15

end Sys2Proof
end

