-- ==== Sys2Proof/Syntax.lean ====
section
/-! DEFINITION. The 34 instructions of spec/opcode_table.json, in the table's order (30_encoding.md R66). -/

namespace Sys2Proof

/-- One constructor per row of the opcode map (R66). Operands are those of R61 and R62: `x` and `y` select a register,
`kk` and `nnn` are immediates, `n` counts the rows of a sprite. -/
inductive Instr where
  /-- `00E0`, clear-screen (R140). -/
  | cls
  /-- `00EE`, return (R101). -/
  | ret
  /-- `1nnn`, jump (R102). -/
  | jp (nnn : Imm12)
  /-- `2nnn`, call (R103). -/
  | call (nnn : Imm12)
  /-- `3xkk`, skip if equal to the immediate (R104). -/
  | seImm (x : Reg) (kk : Byte)
  /-- `4xkk`, skip if not equal to the immediate (R105). -/
  | sneImm (x : Reg) (kk : Byte)
  /-- `5xy0`, skip if the registers are equal (R106). -/
  | seReg (x y : Reg)
  /-- `9xy0`, skip if the registers differ (R107). -/
  | sneReg (x y : Reg)
  /-- `6xkk`, load immediate (R112). -/
  | ldImm (x : Reg) (kk : Byte)
  /-- `7xkk`, add immediate (R113). -/
  | addImm (x : Reg) (kk : Byte)
  /-- `8xy0`, register move (R114). -/
  | ldReg (x y : Reg)
  /-- `8xy1` (R115). -/
  | orReg (x y : Reg)
  /-- `8xy2` (R116). -/
  | andReg (x y : Reg)
  /-- `8xy3` (R117). -/
  | xorReg (x y : Reg)
  /-- `8xy4`, add registers (R118). -/
  | addReg (x y : Reg)
  /-- `8xy5`, subtract (R119). -/
  | subReg (x y : Reg)
  /-- `8xy6`, shift right (R121). -/
  | shr (x y : Reg)
  /-- `8xy7`, subtract reverse (R120). -/
  | subnReg (x y : Reg)
  /-- `8xyE`, shift left (R122). -/
  | shl (x y : Reg)
  /-- `Annn`, set index (R130). -/
  | ldI (nnn : Imm12)
  /-- `Bnnn`, jump with offset V0 (R108). -/
  | jpV0 (nnn : Imm12)
  /-- `Cxkk`, random and (R123). -/
  | rnd (x : Reg) (kk : Byte)
  /-- `Dxyn`, draw an n-row sprite (R141). -/
  | drw (x y : Reg) (n : Nat)
  /-- `Ex9E`, skip if the key is pressed (R150). -/
  | skp (x : Reg)
  /-- `ExA1`, skip if the key is not pressed (R151). -/
  | sknp (x : Reg)
  /-- `Fx07`, load the delay timer into Vx (R152). -/
  | ldVxDT (x : Reg)
  /-- `Fx15`, store Vx into the delay timer (R153). -/
  | ldDTVx (x : Reg)
  /-- `Fx18`, store Vx into the sound timer (R154). -/
  | ldSTVx (x : Reg)
  /-- `Fx1E`, add to index (R131). -/
  | addIVx (x : Reg)
  /-- `Fx29`, font character address (R132). -/
  | ldFVx (x : Reg)
  /-- `Fx33`, store BCD (R133). -/
  | ldBVx (x : Reg)
  /-- `Fx55`, dump V0..Vx to memory (R134). -/
  | ldMemVx (x : Reg)
  /-- `Fx65`, load V0..Vx from memory (R135). -/
  | ldVxMem (x : Reg)
  /-- `Fx0A`, wait for a key (R155). -/
  | ldVxK (x : Reg)
  deriving DecidableEq, Repr

end Sys2Proof
end

