-- ==== Sys2Proof/WellFormed.lean ====
section
/-! DEFINITION. When an instruction is one that an opcode can hold (30_encoding.md R61, R62). Register indexes and the
immediates `kk`, `nnn` carry their bound in their type; the sprite height is a count, bounded here. -/

namespace Sys2Proof

/-- `n` is "a 4-bit unsigned count in 0..15" (R62). Every other operand fits its field by its type. -/
def Instr.wf : Instr → Bool
  | .drw _ _ n => decide (n ≤ 15)
  | .cls | .ret => true
  | .jp _ | .call _ | .ldI _ | .jpV0 _ => true
  | .seImm _ _ | .sneImm _ _ | .ldImm _ _ | .addImm _ _ | .rnd _ _ => true
  | .seReg _ _ | .sneReg _ _ | .ldReg _ _ | .orReg _ _ | .andReg _ _ | .xorReg _ _ => true
  | .addReg _ _ | .subReg _ _ | .shr _ _ | .subnReg _ _ | .shl _ _ => true
  | .skp _ | .sknp _ | .ldVxDT _ | .ldDTVx _ | .ldSTVx _ | .addIVx _ | .ldFVx _ => true
  | .ldBVx _ | .ldMemVx _ | .ldVxMem _ | .ldVxK _ => true

end Sys2Proof
end

