-- ==== Sys2Proof/Decode.lean ====
section
/-! DEFINITION. Decoding and encoding (30_encoding.md R60-R68): a total function from any bytes to an instruction or a
rejection by name, and the words of an instruction, both written from the layout of R61 and the opcode map of R66. -/

namespace Sys2Proof

/-! ### Bytes and words -/

/-- An opcode from its two bytes, the byte at the lower address in bits 15:8 (20_memory.md R46). -/
def wordOfBytes (hi lo : Byte) : Word := hi ++ lo

/-- Bits 15:8 of a word: the byte that lies at the lower address (R46). -/
def highByte (w : Word) : Byte := w.extractLsb' 8 8

/-- Bits 7:0 of a word: the byte that lies at the higher address (R46). -/
def lowByte (w : Word) : Byte := w.extractLsb' 0 8

/-! ### The fields of an opcode (R61) -/

/-- `n0`, op[15:12]. -/
def fieldN0 (w : Word) : Nibble := w.extractLsb' 12 4

/-- `x`, op[11:8], bits. -/
def fieldX (w : Word) : Nibble := w.extractLsb' 8 4

/-- `y`, op[7:4], bits. -/
def fieldY (w : Word) : Nibble := w.extractLsb' 4 4

/-- `n`, op[3:0]. -/
def fieldN (w : Word) : Nibble := w.extractLsb' 0 4

/-- `kk`, op[7:0]. -/
def fieldKK (w : Word) : Byte := w.extractLsb' 0 8

/-- `nnn`, op[11:0]. -/
def fieldNNN (w : Word) : Imm12 := w.extractLsb' 0 12

/-- The register that a nibble selects (R62: "`x` and `y` select `V[x]` and `V[y]` directly"). -/
def regOf (b : Nibble) : Reg := ⟨b.toNat, b.isLt⟩

/-- The nibble that selects a register. -/
def regBits (r : Reg) : Nibble := BitVec.ofNat 4 r.val

/-! ### Decoding -/

/-- Why bytes are no instruction. -/
inductive DecodeError where
  /-- The word matches no row of the opcode map; it carries the raw word (R64, R165). Raised by `decodeWord`. -/
  | invalidOpcode (op : Word)
  /-- Fewer than the two bytes every instruction has (R60). Raised by `decode` only, never in a fetch, which reads two
  bytes or faults. -/
  | truncated
  deriving DecidableEq, Repr

/-- The nine members of the `8xyN` group, by the trailing nibble (R66 rows 11 to 19, 90_conflicts.md C1). -/
def decodeAlu (w : Word) : Except DecodeError Instr :=
  let x := regOf (fieldX w)
  let y := regOf (fieldY w)
  match (fieldN w).toNat with
  | 0x0 => .ok (.ldReg x y)
  | 0x1 => .ok (.orReg x y)
  | 0x2 => .ok (.andReg x y)
  | 0x3 => .ok (.xorReg x y)
  | 0x4 => .ok (.addReg x y)
  | 0x5 => .ok (.subReg x y)
  | 0x6 => .ok (.shr x y)
  | 0x7 => .ok (.subnReg x y)
  | 0xE => .ok (.shl x y)
  | _ => .error (.invalidOpcode w)

/-- The `F` group, by the whole low byte (R66 rows 26 to 34, R68). -/
def decodeMisc (w : Word) : Except DecodeError Instr :=
  let x := regOf (fieldX w)
  match (fieldKK w).toNat with
  | 0x07 => .ok (.ldVxDT x)
  | 0x0A => .ok (.ldVxK x)
  | 0x15 => .ok (.ldDTVx x)
  | 0x18 => .ok (.ldSTVx x)
  | 0x1E => .ok (.addIVx x)
  | 0x29 => .ok (.ldFVx x)
  | 0x33 => .ok (.ldBVx x)
  | 0x55 => .ok (.ldMemVx x)
  | 0x65 => .ok (.ldVxMem x)
  | _ => .error (.invalidOpcode w)

/-- The instruction a word is, or its rejection (R63: "a total function from every 16-bit word"). It reads only the
opcode bits. -/
def decodeWord (w : Word) : Except DecodeError Instr :=
  let x := regOf (fieldX w)
  let y := regOf (fieldY w)
  match (fieldN0 w).toNat with
  | 0x0 =>
    match (fieldNNN w).toNat with
    | 0x0E0 => .ok .cls
    | 0x0EE => .ok .ret
    | _ => .error (.invalidOpcode w)
  | 0x1 => .ok (.jp (fieldNNN w))
  | 0x2 => .ok (.call (fieldNNN w))
  | 0x3 => .ok (.seImm x (fieldKK w))
  | 0x4 => .ok (.sneImm x (fieldKK w))
  | 0x5 =>
    match (fieldN w).toNat with
    | 0x0 => .ok (.seReg x y)
    | _ => .error (.invalidOpcode w)
  | 0x6 => .ok (.ldImm x (fieldKK w))
  | 0x7 => .ok (.addImm x (fieldKK w))
  | 0x8 => decodeAlu w
  | 0x9 =>
    match (fieldN w).toNat with
    | 0x0 => .ok (.sneReg x y)
    | _ => .error (.invalidOpcode w)
  | 0xA => .ok (.ldI (fieldNNN w))
  | 0xB => .ok (.jpV0 (fieldNNN w))
  | 0xC => .ok (.rnd x (fieldKK w))
  | 0xD => .ok (.drw x y (fieldN w).toNat)
  | 0xE =>
    match (fieldKK w).toNat with
    | 0x9E => .ok (.skp x)
    | 0xA1 => .ok (.sknp x)
    | _ => .error (.invalidOpcode w)
  | _ => decodeMisc w

/-- Decoding a byte sequence: the first instruction and the bytes after it, total on any bytes (R60: "every instruction
is 2 bytes"). -/
def decode : List Byte → Except DecodeError (Instr × List Byte)
  | hi :: lo :: rest =>
    match decodeWord (wordOfBytes hi lo) with
    | .ok i => .ok (i, rest)
    | .error e => .error e
  | _ => .error .truncated

/-! ### Encoding -/

/-- The layout n0 x y n of R61. -/
def packXYN (n0 x y n : Nibble) : Word := n0 ++ x ++ y ++ n

/-- The layout n0 x kk of R61. -/
def packXKK (n0 x : Nibble) (kk : Byte) : Word := n0 ++ x ++ kk

/-- The layout n0 nnn of R61. -/
def packNNN (n0 : Nibble) (nnn : Imm12) : Word := n0 ++ nnn

/-- The word of an instruction, from the pattern column of R66. -/
def encode : Instr → Word
  | .cls => packNNN 0x0 0x0E0
  | .ret => packNNN 0x0 0x0EE
  | .jp nnn => packNNN 0x1 nnn
  | .call nnn => packNNN 0x2 nnn
  | .seImm x kk => packXKK 0x3 (regBits x) kk
  | .sneImm x kk => packXKK 0x4 (regBits x) kk
  | .seReg x y => packXYN 0x5 (regBits x) (regBits y) 0x0
  | .sneReg x y => packXYN 0x9 (regBits x) (regBits y) 0x0
  | .ldImm x kk => packXKK 0x6 (regBits x) kk
  | .addImm x kk => packXKK 0x7 (regBits x) kk
  | .ldReg x y => packXYN 0x8 (regBits x) (regBits y) 0x0
  | .orReg x y => packXYN 0x8 (regBits x) (regBits y) 0x1
  | .andReg x y => packXYN 0x8 (regBits x) (regBits y) 0x2
  | .xorReg x y => packXYN 0x8 (regBits x) (regBits y) 0x3
  | .addReg x y => packXYN 0x8 (regBits x) (regBits y) 0x4
  | .subReg x y => packXYN 0x8 (regBits x) (regBits y) 0x5
  | .shr x y => packXYN 0x8 (regBits x) (regBits y) 0x6
  | .subnReg x y => packXYN 0x8 (regBits x) (regBits y) 0x7
  | .shl x y => packXYN 0x8 (regBits x) (regBits y) 0xE
  | .ldI nnn => packNNN 0xA nnn
  | .jpV0 nnn => packNNN 0xB nnn
  | .rnd x kk => packXKK 0xC (regBits x) kk
  | .drw x y n => packXYN 0xD (regBits x) (regBits y) (BitVec.ofNat 4 n)
  | .skp x => packXKK 0xE (regBits x) 0x9E
  | .sknp x => packXKK 0xE (regBits x) 0xA1
  | .ldVxDT x => packXKK 0xF (regBits x) 0x07
  | .ldDTVx x => packXKK 0xF (regBits x) 0x15
  | .ldSTVx x => packXKK 0xF (regBits x) 0x18
  | .addIVx x => packXKK 0xF (regBits x) 0x1E
  | .ldFVx x => packXKK 0xF (regBits x) 0x29
  | .ldBVx x => packXKK 0xF (regBits x) 0x33
  | .ldMemVx x => packXKK 0xF (regBits x) 0x55
  | .ldVxMem x => packXKK 0xF (regBits x) 0x65
  | .ldVxK x => packXKK 0xF (regBits x) 0x0A

/-- The two bytes of an instruction as they lie in memory, lower address first (R46). -/
def encodeBytes (i : Instr) : List Byte := [highByte (encode i), lowByte (encode i)]

/-! ### The opcode map as the spec prints it -/

/-- One row of R66: a word selects it when `w & mask == match` (R63). -/
structure OpcodeRow where
  mnemonic : String
  bits : Word
  mask : Word
  deriving DecidableEq, Repr

/-- Rows 1 to 10 of R66. -/
def opcodeRowsFlow : List OpcodeRow :=
  [⟨"CLS", 0x00E0, 0xFFFF⟩, ⟨"RET", 0x00EE, 0xFFFF⟩, ⟨"JP_nnn", 0x1000, 0xF000⟩, ⟨"CALL_nnn", 0x2000, 0xF000⟩,
   ⟨"SE_Vx__kk", 0x3000, 0xF000⟩, ⟨"SNE_Vx__kk", 0x4000, 0xF000⟩, ⟨"SE_Vx__Vy", 0x5000, 0xF00F⟩,
   ⟨"SNE_Vx__Vy", 0x9000, 0xF00F⟩, ⟨"LD_Vx__kk", 0x6000, 0xF000⟩, ⟨"ADD_Vx__kk", 0x7000, 0xF000⟩]

/-- Rows 11 to 19 of R66. -/
def opcodeRowsAlu : List OpcodeRow :=
  [⟨"LD_Vx__Vy", 0x8000, 0xF00F⟩, ⟨"OR_Vx__Vy", 0x8001, 0xF00F⟩, ⟨"AND_Vx__Vy", 0x8002, 0xF00F⟩,
   ⟨"XOR_Vx__Vy", 0x8003, 0xF00F⟩, ⟨"ADD_Vx__Vy", 0x8004, 0xF00F⟩, ⟨"SUB_Vx__Vy", 0x8005, 0xF00F⟩,
   ⟨"SHR_Vx____Vy", 0x8006, 0xF00F⟩, ⟨"SUBN_Vx__Vy", 0x8007, 0xF00F⟩, ⟨"SHL_Vx____Vy", 0x800E, 0xF00F⟩]

/-- Rows 20 to 34 of R66. -/
def opcodeRowsRest : List OpcodeRow :=
  [⟨"LD_I__nnn", 0xA000, 0xF000⟩, ⟨"JP_V0__nnn", 0xB000, 0xF000⟩, ⟨"RND_Vx__kk", 0xC000, 0xF000⟩,
   ⟨"DRW_Vx__Vy__n", 0xD000, 0xF000⟩, ⟨"SKP_Vx", 0xE09E, 0xF0FF⟩, ⟨"SKNP_Vx", 0xE0A1, 0xF0FF⟩,
   ⟨"LD_Vx__DT", 0xF007, 0xF0FF⟩, ⟨"LD_DT__Vx", 0xF015, 0xF0FF⟩, ⟨"LD_ST__Vx", 0xF018, 0xF0FF⟩,
   ⟨"ADD_I__Vx", 0xF01E, 0xF0FF⟩, ⟨"LD_F__Vx", 0xF029, 0xF0FF⟩, ⟨"LD_B__Vx", 0xF033, 0xF0FF⟩,
   ⟨"LD__I___Vx", 0xF055, 0xF0FF⟩, ⟨"LD_Vx___I", 0xF065, 0xF0FF⟩, ⟨"LD_Vx__K", 0xF00A, 0xF0FF⟩]

/-- The opcode map of R66, 34 rows in the order of the source's table. -/
def opcodeMap : List OpcodeRow := opcodeRowsFlow ++ opcodeRowsAlu ++ opcodeRowsRest

/-- The row's mnemonic in spec/opcode_table.json. -/
def Instr.mnemonic : Instr → String
  | .cls => "CLS"
  | .ret => "RET"
  | .jp _ => "JP_nnn"
  | .call _ => "CALL_nnn"
  | .seImm _ _ => "SE_Vx__kk"
  | .sneImm _ _ => "SNE_Vx__kk"
  | .seReg _ _ => "SE_Vx__Vy"
  | .sneReg _ _ => "SNE_Vx__Vy"
  | .ldImm _ _ => "LD_Vx__kk"
  | .addImm _ _ => "ADD_Vx__kk"
  | .ldReg _ _ => "LD_Vx__Vy"
  | .orReg _ _ => "OR_Vx__Vy"
  | .andReg _ _ => "AND_Vx__Vy"
  | .xorReg _ _ => "XOR_Vx__Vy"
  | .addReg _ _ => "ADD_Vx__Vy"
  | .subReg _ _ => "SUB_Vx__Vy"
  | .shr _ _ => "SHR_Vx____Vy"
  | .subnReg _ _ => "SUBN_Vx__Vy"
  | .shl _ _ => "SHL_Vx____Vy"
  | .ldI _ => "LD_I__nnn"
  | .jpV0 _ => "JP_V0__nnn"
  | .rnd _ _ => "RND_Vx__kk"
  | .drw _ _ _ => "DRW_Vx__Vy__n"
  | .skp _ => "SKP_Vx"
  | .sknp _ => "SKNP_Vx"
  | .ldVxDT _ => "LD_Vx__DT"
  | .ldDTVx _ => "LD_DT__Vx"
  | .ldSTVx _ => "LD_ST__Vx"
  | .addIVx _ => "ADD_I__Vx"
  | .ldFVx _ => "LD_F__Vx"
  | .ldBVx _ => "LD_B__Vx"
  | .ldMemVx _ => "LD__I___Vx"
  | .ldVxMem _ => "LD_Vx___I"
  | .ldVxK _ => "LD_Vx__K"

/-! ### What the host reads -/

/-- The instruction this decoder reads from an opcode-table word: bit 0 of `w` is bit 0 of the opcode (R8), the bits at
and above `nbits` are zero, and the word lies in memory big-endian (R46). -/
def decodeTableWord (nbits w : Nat) : Option Instr :=
  let op : Word := BitVec.ofNat 16 (w % 2 ^ nbits)
  match decode [highByte op, lowByte op] with
  | .ok (i, _) => some i
  | .error _ => none

end Sys2Proof
end

