-- ==== Sys2Proof/Config.lean ====
section
/-! DEFINITION. What is fixed for this hardware (00_scope.md R5, R6) and the one free value of the spec (R7). -/

namespace Sys2Proof.Config

/-- `MEM_SIZE`, 4096 bytes at addresses 0x000..0xFFF (R5, R40). -/
abbrev memSize : Nat := 4096

/-- `PROGRAM_BASE`, where an image is loaded and where execution starts (R5, R34, R185). -/
abbrev programBase : Nat := 0x200

/-- `MAX_PROGRAM_LEN`, 3584 bytes (R5, R181). -/
abbrev maxProgramLen : Nat := memSize - programBase

/-- `FONT_BASE` (R5, R42). UNVERIFIED: the spec's own decision D2 (log entry 12). -/
abbrev fontBase : Nat := 0x000

/-- `GLYPH_BYTES`, five sprite rows a glyph (R5, R42). -/
abbrev glyphBytes : Nat := 5

/-- `STACK_DEPTH`, the entries of the call stack (R5, R25). -/
abbrev stackDepth : Nat := 16

/-- The two values of the configuration parameter `SHIFT_SOURCE` (R6). -/
inductive ShiftSource where
  | vx
  | vy
  deriving DecidableEq, Repr

/-- The default of `SHIFT_SOURCE` (R6: "`Vx` is the hardware's value"; log entry 11), which State.reset has. A machine of the
named configuration `Vy` is one whose state holds `Vy` (Machine/State.lean; log entry 30). -/
def shiftSource : ShiftSource := .vx

/-- `random_byte()` (R7, R123): the n-th draw is a byte about which nothing is known. DESIGN CHOICE: the draws are
numbered by a counter in State (log entry 5). It has no body, so no proof can lean on a value of it. -/
opaque randomByte : Nat → Byte

end Sys2Proof.Config
end

