-- ==== Sys2Proof/Machine/Memory.lean ====
section
/-! DEFINITION. The memory controller's store (20_memory.md R40-R44, R49): 4096 bytes as a list of (address, byte) cells in
one canonical form, and reading and writing one byte of it. Range checks stand in Machine/Ops.lean. -/

namespace Sys2Proof.Machine

/-- The glyphs of the digits 0 to 7 (R42). -/
def glyphsLow : List (List Byte) :=
  [[0xF0, 0x90, 0x90, 0x90, 0xF0], [0x20, 0x60, 0x20, 0x20, 0x70], [0xF0, 0x10, 0xF0, 0x80, 0xF0],
   [0xF0, 0x10, 0xF0, 0x10, 0xF0], [0x90, 0x90, 0xF0, 0x10, 0x10], [0xF0, 0x80, 0xF0, 0x10, 0xF0],
   [0xF0, 0x80, 0xF0, 0x90, 0xF0], [0xF0, 0x10, 0x20, 0x40, 0x40]]

/-- The glyphs of the digits 8 to F (R42). -/
def glyphsHigh : List (List Byte) :=
  [[0xF0, 0x90, 0xF0, 0x90, 0xF0], [0xF0, 0x90, 0xF0, 0x10, 0xF0], [0xF0, 0x90, 0xF0, 0x90, 0x90],
   [0xE0, 0x90, 0xE0, 0x90, 0xE0], [0xF0, 0x80, 0x80, 0x80, 0xF0], [0xE0, 0x90, 0x90, 0x90, 0xE0],
   [0xF0, 0x80, 0xF0, 0x80, 0xF0], [0xF0, 0x80, 0xF0, 0x80, 0x80]]

/-- `FONT[0..79]`, glyph d at offset 5 d (R42). UNVERIFIED: the spec gives these bytes from general knowledge, its own
decision D3 (log entry 13). -/
def font : List Byte := (glyphsLow ++ glyphsHigh).flatten

/-- What an address that no cell lists reads as: memory after `new` of an empty image, the font table at `FONT_BASE` and
zero elsewhere (R35, R41; log entry 7). -/
def blankByte (a : Nat) : Byte := if a < Config.fontBase then 0 else font.getD (a - Config.fontBase) 0

/-- Memory: the bytes that differ from `blankByte`, addresses strictly rising. -/
abbrev Memory := List Host.Cell

/-- The byte at address `a`. -/
def Memory.read : Memory → Nat → Byte
  | [], a => blankByte a
  | (b, u) :: m, a => if a < b then blankByte a else if a = b then u else Memory.read m a

/-- The cell that lists `v` at `a`, none where `a` reads as `v` unlisted. -/
def Memory.cell (a : Nat) (v : Byte) : Memory := if v = blankByte a then [] else [(a, v)]

/-- `v` written at address `a`; the canonical form is kept. -/
def Memory.write : Memory → Nat → Byte → Memory
  | [], a, v => Memory.cell a v
  | (b, u) :: m, a, v =>
    if b < a then (b, u) :: Memory.write m a v
    else if a < b then Memory.cell a v ++ (b, u) :: m
    else Memory.cell a v ++ m

/-- The bytes `vs` written from address `a` upward, in order. -/
def Memory.writeBytes : Memory → Nat → List Byte → Memory
  | m, _, [] => m
  | m, a, v :: vs => Memory.writeBytes (m.write a v) (a + 1) vs

/-- The canonical form from address `lo` upward: addresses strictly rising and inside the address space (R40), no cell
equal to what its address reads as unlisted. -/
def Memory.wfFrom : Nat → Memory → Bool
  | _, [] => true
  | lo, (b, u) :: m => decide (lo ≤ b) && decide (b < Config.memSize) && decide (u ≠ blankByte b) && Memory.wfFrom (b + 1) m

/-- The canonical form of memory. -/
def Memory.wf (m : Memory) : Bool := Memory.wfFrom 0 m

end Sys2Proof.Machine
end

