-- ==== Sys2Proof/Machine/State.lean ====
section
/-! DEFINITION. The machine's state (10_state.md R20), what a step and a load can answer, and the state after reset (R34, R35). -/

namespace Sys2Proof.Machine

/-- The display buffer: 32 rows of 8 column bytes (R27). -/
abbrev Display := Vector (Vector Byte 8) 32

/-- The fatal errors of a `step` (60_exceptions.md R161). Each leads to `run = Faulted` (R163); names are the spec's own,
decision D22 (log entry 27). -/
inductive ExecutionError where
  /-- The fetched word matches no row of the opcode map (R165). -/
  | invalidOpcode (op : Word)
  /-- `CALL` with SP = 16 (R166). -/
  | stackOverflow
  /-- `RET` with SP = 0 (R167). -/
  | stackUnderflow
  /-- A fetch, `DRW`, `LD B`, `LD [I]` or `LD Vx,[I]` past 0xFFF; `addr` is the access's first address (R168). -/
  | addressOutOfRange (addr : Word)
  /-- `SKP` or `SKNP` with V[x] > 0x0F (R169). -/
  | keyOutOfRange (k : Byte)
  deriving DecidableEq, Repr

/-- The errors of `new` (R161, 70_reset_and_hazards.md R181, R182). -/
inductive LoadError where
  /-- The image is longer than 3584 bytes; `len` is its length (R181). -/
  | imageTooLarge (len : Nat)
  /-- The host could not read the file; passed on by the load (R182). -/
  | io
  deriving DecidableEq, Repr

/-- The fault record held in `run = Faulted(f)` (R162); `opcode` is none when the fetch itself failed. -/
structure FaultRecord where
  error : ExecutionError
  fetchPc : Word
  opcode : Option Word
  deriving DecidableEq, Repr

/-- The run state: the keyboard-wait latch and the fault state (R11, R32). -/
inductive RunState where
  | running
  | awaitingKey (r : Reg)
  | faulted (f : FaultRecord)
  deriving DecidableEq, Repr

/-- What a successful step reports (R11, R85). -/
inductive Effect where
  | none
  /-- The snapshot is a copy of the display (40_engine_cycle.md R91). -/
  | redraw (snapshot : Display)
  | awaitKey
  deriving DecidableEq, Repr

/-- What a `step` returns: `Ok(Effect)` or `Err(ExecutionError)` (R11, R80). -/
inductive StepResult where
  | ok (e : Effect)
  | err (e : ExecutionError)
  deriving DecidableEq, Repr

/-- The operations of the block's interface (40_engine_cycle.md R80). -/
inductive HostOp where
  /-- `step()` (R82-R84). -/
  | step
  /-- `decrement_timers()` (R172). -/
  | decrementTimers
  /-- `set_keypad(mask)` (R86). -/
  | setKeypad (mask : Word)
  /-- `deliver_key(value)` (R87). -/
  | deliverKey (value : Byte)
  /-- `new(program_bytes)` (R180); `none` where the host's read of the ROM file failed (R182). -/
  | new (file : Option (List Byte))
  deriving DecidableEq, Repr

/-- The machine's state. The first eleven fields are the tuple of R20; the last four are the model's own. -/
structure State where
  /-- `mem[0x000..0xFFF]` (R40). -/
  mem : Memory
  /-- `V[0..15]` (R21). -/
  V : Vector Byte 16
  /-- `I`, the index register (R23). -/
  I : Word
  /-- `pc` (R24). -/
  pc : Word
  /-- `stack[0..15]`, the call stack (R25). -/
  stack : Vector Word 16
  /-- `SP`, 0..16, the number of occupied entries (R26). -/
  SP : Fin 17
  /-- `disp[0..31][0..7]` (R27). -/
  disp : Display
  /-- `DT`, the delay timer (R29). -/
  DT : Byte
  /-- `ST`, the sound timer (R30). -/
  ST : Byte
  /-- `keypad` (R31). -/
  keypad : Word
  /-- `run` (R32). -/
  run : RunState
  /-- MODEL'S OWN. What the last `step` returned, none before the first (R11, R85). DESIGN CHOICE (log entry 1). -/
  report : Option StepResult
  /-- MODEL'S OWN. How many random bytes have been drawn (R7). DESIGN CHOICE (log entry 5). -/
  draws : Nat
  /-- MODEL'S OWN. The host operations issued and not yet taken, oldest first (R81, R90). DESIGN CHOICE (log entry 2). -/
  issued : List HostOp
  /-- MODEL'S OWN. The configuration `SHIFT_SOURCE` this machine is made with (R6); nothing that runs writes it. DESIGN CHOICE
  (log entry 30): the spec counts it as no state, but the machine the host runs takes no other argument. -/
  shiftSource : Config.ShiftSource
  deriving DecidableEq, Repr

/-- Why a step leaves no state. -/
inductive Fault where
  /-- Raised by the operation `new` alone, when the image is too large or its file unreadable: "no engine state exists or
  can be observed" (R183). Safe: the machine stops where the hardware has none (log entry 9). No instruction raises it. -/
  | loadFailed (e : LoadError)
  deriving DecidableEq, Repr

/-- Why the model has no move. -/
inductive Refusal where
  /-- Raised by an arm of `exec` for an instruction without a meaning: no arm is such. Safe. -/
  | notModelled (mnemonic : String)
  /-- Raised by the machine's step alone, for an issued operation that the host must never call (R89: "A model has no move for
  what the host must never do"; log entry 31). No instruction raises it. Safe: no run of a host that keeps its duties is
  lost. -/
  | hostDuty (op : HostOp)
  deriving DecidableEq, Repr

/-- A display with every pixel off (R34, R140). -/
def Display.blank : Display := Vector.replicate 32 (Vector.replicate 8 0)

/-- The state right after `new` of an empty image (70_reset_and_hazards.md R180): pc, the display and `run` from R34, the
zeros from R35 (log entry 6), memory with no cell listed (log entry 7). -/
def State.reset : State where
  mem := []
  V := Vector.replicate 16 0
  I := 0
  pc := 0x200
  stack := Vector.replicate 16 0
  SP := 0
  disp := Display.blank
  DT := 0
  ST := 0
  keypad := 0
  run := .running
  report := none
  draws := 0
  issued := []
  shiftSource := Config.shiftSource

/-- What an operation on the machine answers. -/
abbrev Answer := Host.Outcome State Fault Refusal

end Sys2Proof.Machine
end

