-- ==== Sys2Proof/Machine/Ops.lean ====
section
/-! DEFINITION. The named operations over registers, memory, the call stack and the run state that the meanings share:
the primitives of 00_scope.md R10, the range check of 20_memory.md R45, fault entry (60_exceptions.md R163), the step's
report (40_engine_cycle.md R85). There is no return from a fault (R171), so none stands beside fault entry. -/

namespace Sys2Proof.Machine

/-! ### General registers -/

/-- `V[i]` (R10, R21). -/
def State.getV (s : State) (r : Reg) : Byte := s.V[r]

/-- `V[i] <- v` (R10, R21). -/
def State.setV (s : State) (r : Reg) (v : Byte) : State := { s with V := s.V.set r v }

/-! ### Memory -/

/-- `mem[a]`. -/
def State.readByte (s : State) (a : Nat) : Byte := s.mem.read a

/-- The `n` bytes from `addr` upward (R136: the effective address is the exact sum). -/
def State.readBytes (s : State) (addr : Word) (n : Nat) : List Byte :=
  (List.range n).map fun k => s.readByte (addr.toNat + k)

/-- The bytes `vs` stored from `addr` upward, one byte wide each (R44). -/
def State.storeBytes (s : State) (addr : Word) (vs : List Byte) : State :=
  { s with mem := s.mem.writeBytes addr.toNat vs }

/-- Whether `CheckRange(addr, n)` raises: `n > 0` and `addr + n - 1 > 0xFFF`, the sum exact (R45). -/
def outOfRange (addr : Word) (n : Nat) : Bool := decide (0 < n ∧ addr.toNat + n - 1 > 0xFFF)

/-- `MemRead(pc, 2)`, big-endian (R43, R46); none where the range check raises. -/
def State.fetchWord (s : State) : Option Word :=
  if outOfRange s.pc 2 then none
  else some (wordOfBytes (s.readByte s.pc.toNat) (s.readByte (s.pc.toNat + 1)))

/-! ### The program counter -/

/-- `pc <- (pc + 2) mod 65536` (R82). -/
def State.advance (s : State) : State := { s with pc := s.pc + 2 }

/-- `pc <- target` (R10). -/
def State.jump (s : State) (target : Word) : State := { s with pc := target }

/-- A skip: advance past the next word when the condition holds, nothing otherwise (41_control_flow.md R100). -/
def State.skipIf (s : State) (c : Bool) : State := if c then s.advance else s

/-! ### The end of a step -/

/-- `return Effect` (R10, R85). -/
def State.reply (s : State) (e : Effect) : State := { s with report := some (.ok e) }

/-- The end of an instruction that returns `None` (R85). -/
def done (s : State) : Answer := .next (s.reply .none)

/-- The end of an instruction that returns `Redraw(snapshot)`, the display as the instruction leaves it (R91). -/
def redraw (s : State) : Answer := .next (s.reply (.redraw s.disp))

/-! ### Fault entry -/

/-- Fault entry (R163): `run <- Faulted(f)` with the record of R162, `Err(E)` returned; every other element keeps the
value it had at the `raise`. -/
def State.raise (s : State) (e : ExecutionError) (fetchPc : Word) (opcode : Option Word) : State :=
  { s with run := .faulted ⟨e, fetchPc, opcode⟩, report := some (.err e) }

/-- `raise E` while instruction `i` executes. `pc` holds fpc + 2 (R82), so the fetch address is pc - 2, and the word
fetched is the one word that decodes to `i`. DEDUCED (log entry 4). -/
def raiseIn (i : Instr) (e : ExecutionError) (s : State) : Answer :=
  .next (s.raise e (s.pc - 2) (some (encode i)))

/-- `CheckRange(addr, n)` at the head of instruction `i`, whose other effects are `body` (R45: the whole byte range is
checked once, before the first access). -/
def checkRange (i : Instr) (addr : Word) (n : Nat) (s : State) (body : State → Answer) : Answer :=
  if outOfRange addr n then raiseIn i (.addressOutOfRange addr) s else body s

/-! ### The call stack -/

/-- Push `pc` and jump (R103), or `StackOverflow` at SP = 16 (R166). -/
def callTo (i : Instr) (target : Word) (s : State) : Answer :=
  if h : s.SP.val < 16 then
    done ({ s with stack := s.stack.set s.SP.val s.pc, SP := ⟨s.SP.val + 1, by omega⟩ }.jump target)
  else raiseIn i .stackOverflow s

/-- Pop into `pc` (R101): SP is decremented, then read through (90_conflicts.md C4); the entry keeps its value (R25). Or
`StackUnderflow` at SP = 0 (R167). -/
def returnFrom (i : Instr) (s : State) : Answer :=
  if h : 0 < s.SP.val then
    done ({ s with SP := ⟨s.SP.val - 1, by omega⟩ }.jump (s.stack[s.SP.val - 1]'(by omega)))
  else raiseIn i .stackUnderflow s

/-! ### The codes of the errors -/

/-- The numeric code of an execution error (R161). -/
def ExecutionError.code : ExecutionError → Nat
  | .invalidOpcode _ => 1
  | .stackOverflow => 2
  | .stackUnderflow => 3
  | .addressOutOfRange _ => 4
  | .keyOutOfRange _ => 5

/-- The numeric code of a load error (R161). -/
def LoadError.code : LoadError → Nat
  | .imageTooLarge _ => 16
  | .io => 17

end Sys2Proof.Machine
end

