-- ==== Sys2Proof/Machine/Operands.lean ====
section
/-! DEFINITION. The operand forms (30_encoding.md R62, 43_index_memory.md R136): immediates, the shift source, a key
index, the register range V0..Vx, the decimal digits of a byte. -/

namespace Sys2Proof.Machine

/-- `zext_16(nnn)` (R9, R62). -/
def zextImm (nnn : Imm12) : Word := nnn.setWidth 16

/-- `zext_16(V[x])` (R9). -/
def zextByte (b : Byte) : Word := b.setWidth 16

/-- The operand of a shift under `SHIFT_SOURCE` (00_scope.md R6, 42_alu.md R121, R122). -/
def shiftOperand (src : Config.ShiftSource) (x y : Reg) (s : State) : Byte :=
  match src with
  | .vx => s.getV x
  | .vy => s.getV y

/-- Keypad bit k (10_state.md R31: bit n is 1 exactly when hex key n is held). -/
def keyHeld (s : State) (k : Byte) : Bool := s.keypad.getLsbD k.toNat

/-- The key test of `SKP` and `SKNP` at the head of instruction `i` (45_keypad_timer.md R150, R151, R156): `KeyOutOfRange`
above 0x0F, otherwise skip when `cond` holds of the key's bit. -/
def skipOnKey (i : Instr) (x : Reg) (cond : Bool → Bool) (s : State) : Answer :=
  if (s.getV x).toNat > 0x0F then raiseIn i (.keyOutOfRange (s.getV x)) s
  else done (s.skipIf (cond (keyHeld s (s.getV x))))

/-- The values of V0..Vx, in order (R134). -/
def State.regsUpTo (s : State) (x : Reg) : List Byte := s.V.toList.take (x.val + 1)

/-- `V[k] <- mem[addr + k]` for k in 0..x; registers above x unchanged (R135). -/
def State.loadRegs (s : State) (addr : Word) (x : Reg) : State :=
  { s with V := Vector.ofFn fun r : Fin 16 => if r ≤ x then s.readByte (addr.toNat + r.val) else s.V[r] }

/-- Hundreds, tens and ones of a byte (R133). -/
def bcdDigits (v : Byte) : List Byte :=
  [BitVec.ofNat 8 (v.toNat / 100), BitVec.ofNat 8 (v.toNat / 10 % 10), BitVec.ofNat 8 (v.toNat % 10)]

/-- The address of the glyph of a byte: `FONT_BASE + 5 * zext_16(v)`, not masked to a digit (R132). -/
def glyphAddr (v : Byte) : Word := BitVec.ofNat 16 (Config.fontBase + Config.glyphBytes * v.toNat)

end Sys2Proof.Machine
end

