-- ==== Sys2Proof/Machine/Flags.lean ====
section
/-! DEFINITION. The flag computations (42_alu.md R110, R118-R122): every flag is the byte 0 or 1 written to VF. -/

namespace Sys2Proof.Machine

/-- A condition as the byte VF takes. -/
def flagByte (c : Bool) : Byte := if c then 1 else 0

/-- Carry of an addition: 1 iff the exact unsigned sum exceeds 255 (R110, R118). -/
def carryFlag (a b : Byte) : Byte := flagByte (decide (a.toNat + b.toNat > 255))

/-- "Not borrow" of `a - b`, strict: 1 iff the minuend is greater (R110, R119, R120). -/
def notBorrowFlag (a b : Byte) : Byte := flagByte (decide (a.toNat > b.toNat))

/-- The bit a right shift moves out (R121). -/
def shrFlag (src : Byte) : Byte := src &&& 1

/-- The bit a left shift moves out (R122). -/
def shlFlag (src : Byte) : Byte := src >>> 7

/-- The end of a flag-setting instruction: the result to V[x], then the flag to VF, so that the flag stands when x = F
(R111; the spec's own decision D11, log entry 19). -/
def doneWithFlag (x : Reg) (result flag : Byte) (s : State) : Answer := done ((s.setV x result).setV VF flag)

end Sys2Proof.Machine
end

