-- ==== Sys2Proof/Machine/Alu.lean ====
section
/-! DEFINITION. Register load, arithmetic, logic and the random byte (42_alu.md). Every operand is read before anything is
written (R111). -/

namespace Sys2Proof.Machine

/-- `LD Vx, kk` (R112). -/
def execLdImm (x : Reg) (kk : Byte) (s : State) : Answer := done (s.setV x kk)

/-- `ADD Vx, kk` (R113): modulo 256, no flag. -/
def execAddImm (x : Reg) (kk : Byte) (s : State) : Answer := done (s.setV x (s.getV x + kk))

/-- `LD Vx, Vy` (R114). -/
def execLdReg (x y : Reg) (s : State) : Answer := done (s.setV x (s.getV y))

/-- `OR Vx, Vy` (R115). -/
def execOrReg (x y : Reg) (s : State) : Answer := done (s.setV x (s.getV x ||| s.getV y))

/-- `AND Vx, Vy` (R116). -/
def execAndReg (x y : Reg) (s : State) : Answer := done (s.setV x (s.getV x &&& s.getV y))

/-- `XOR Vx, Vy` (R117). -/
def execXorReg (x y : Reg) (s : State) : Answer := done (s.setV x (s.getV x ^^^ s.getV y))

/-- `ADD Vx, Vy` (R118). -/
def execAddReg (x y : Reg) (s : State) : Answer :=
  doneWithFlag x (s.getV x + s.getV y) (carryFlag (s.getV x) (s.getV y)) s

/-- `SUB Vx, Vy` (R119). -/
def execSubReg (x y : Reg) (s : State) : Answer :=
  doneWithFlag x (s.getV x - s.getV y) (notBorrowFlag (s.getV x) (s.getV y)) s

/-- `SUBN Vx, Vy` (R120). -/
def execSubnReg (x y : Reg) (s : State) : Answer :=
  doneWithFlag x (s.getV y - s.getV x) (notBorrowFlag (s.getV y) (s.getV x)) s

/-- Shift right by one under either value of `SHIFT_SOURCE` (R121). -/
def shiftRight (src : Config.ShiftSource) (x y : Reg) (s : State) : Answer :=
  doneWithFlag x (shiftOperand src x y s >>> 1) (shrFlag (shiftOperand src x y s)) s

/-- Shift left by one under either value of `SHIFT_SOURCE` (R122). -/
def shiftLeft (src : Config.ShiftSource) (x y : Reg) (s : State) : Answer :=
  doneWithFlag x (shiftOperand src x y s <<< 1) (shlFlag (shiftOperand src x y s)) s

/-- `SHR Vx {, Vy}` (R121), under the machine's configuration (R6). -/
def execShr (x y : Reg) (s : State) : Answer := shiftRight s.shiftSource x y s

/-- `SHL Vx {, Vy}` (R122), under the machine's configuration (R6). -/
def execShl (x y : Reg) (s : State) : Answer := shiftLeft s.shiftSource x y s

/-- `V[x] <- r & kk` for a drawn byte r; the draw is counted, so the next one is fresh (R7, R123). -/
def randomAnd (r : Byte) (x : Reg) (kk : Byte) (s : State) : Answer :=
  done ({ s with draws := s.draws + 1 }.setV x (r &&& kk))

/-- `RND Vx, kk` (R123): the free value is the draw that the counter numbers (log entry 5). -/
def execRnd (x : Reg) (kk : Byte) (s : State) : Answer := randomAnd (Config.randomByte s.draws) x kk s

end Sys2Proof.Machine
end

