-- ==== Sys2Proof/Machine/Control.lean ====
section
/-! DEFINITION. Control flow (41_control_flow.md): return, jumps, call, the four register skips. -/

namespace Sys2Proof.Machine

/-- `RET` (R101). -/
def execRet (s : State) : Answer := returnFrom .ret s

/-- `JP nnn` (R102). -/
def execJp (nnn : Imm12) (s : State) : Answer := done (s.jump (zextImm nnn))

/-- `CALL nnn` (R103). -/
def execCall (nnn : Imm12) (s : State) : Answer := callTo (.call nnn) (zextImm nnn) s

/-- `SE Vx, kk` (R104). -/
def execSeImm (x : Reg) (kk : Byte) (s : State) : Answer := done (s.skipIf (s.getV x == kk))

/-- `SNE Vx, kk` (R105). -/
def execSneImm (x : Reg) (kk : Byte) (s : State) : Answer := done (s.skipIf (s.getV x != kk))

/-- `SE Vx, Vy` (R106). -/
def execSeReg (x y : Reg) (s : State) : Answer := done (s.skipIf (s.getV x == s.getV y))

/-- `SNE Vx, Vy` (R107). -/
def execSneReg (x y : Reg) (s : State) : Answer := done (s.skipIf (s.getV x != s.getV y))

/-- `JP V0, nnn` (R108): the offset register is always V0. -/
def execJpV0 (nnn : Imm12) (s : State) : Answer := done (s.jump (zextImm nnn + zextByte (s.getV 0)))

end Sys2Proof.Machine
end

