-- ==== Sys2Proof/Machine/Display.lean ====
section
/-! DEFINITION. The display buffer and its two instructions (44_display.md): the XOR sprite blit with wrap and collision. -/

namespace Sys2Proof.Machine

/-- Whether pixel (px, py) is lit: bit `7 - px mod 8` of `disp[py][px / 8]` (10_state.md R28). -/
def Display.pixel (d : Display) (px : Fin 64) (py : Fin 32) : Bool :=
  (d[py][px.val / 8]'(by omega)).getLsbD (7 - px.val % 8)

/-- One column byte XORed with a part of a sprite row (R141). -/
def Display.xorByte (d : Display) (row : Fin 32) (col : Fin 8) (part : Byte) : Display :=
  d.set row (d[row].set col (d[row][col] ^^^ part))

/-- A draw in progress: the display so far, and whether a collision has happened (R144). -/
structure Blit where
  disp : Display
  hit : Bool
  deriving DecidableEq, Repr

/-- One part of a sprite row onto one column byte: the collision test with AND before the XOR (R141, R144). -/
def Blit.part (b : Blit) (row : Fin 32) (col : Fin 8) (part : Byte) : Blit where
  disp := b.disp.xorByte row col part
  hit := b.hit || (b.disp[row][col] &&& part) != 0

/-- Row k of the sprite (R141, R142): the left part on column byte `px / 8 mod 8`, the spilled bits on the next one modulo
8 when the shift is not zero, all on display row `(py + k) mod 32`. -/
def Blit.spriteRow (px py k : Nat) (sprite : Byte) (b : Blit) : Blit :=
  let row : Fin 32 := Fin.ofNat 32 (py + k)
  let col : Fin 8 := Fin.ofNat 8 (px / 8)
  let shift := px % 8
  let left := b.part row col (sprite >>> shift)
  if shift = 0 then left else left.part row (col + 1) (sprite <<< (8 - shift))

/-- The rows of a sprite from row k on, in order. -/
def Blit.spriteRows (px py : Nat) : Nat → List Byte → Blit → Blit
  | _, [], b => b
  | k, sprite :: rest, b => Blit.spriteRows px py (k + 1) rest (b.spriteRow px py k sprite)

/-- The blit of a whole sprite onto a display, no collision before the first row (R144). -/
def Display.drawSprite (d : Display) (px py : Nat) (sprite : List Byte) : Blit :=
  Blit.spriteRows px py 0 sprite ⟨d, false⟩

/-- `CLS` (R140). -/
def execCls (s : State) : Answer := redraw { s with disp := Display.blank }

/-- `DRW Vx, Vy, n` (R141): the coordinates are read, then the range is checked, and only then VF and the display are
written (R145). -/
def execDrw (x y : Reg) (n : Nat) (s : State) : Answer :=
  checkRange (.drw x y n) s.I n s fun s =>
    let b := s.disp.drawSprite (s.getV x).toNat (s.getV y).toNat (s.readBytes s.I n)
    redraw ({ s with disp := b.disp }.setV VF (flagByte b.hit))

end Sys2Proof.Machine
end

