-- ==== Sys2Proof/Machine/Index.lean ====
section
/-! DEFINITION. The index register and the memory instructions (43_index_memory.md). -/

namespace Sys2Proof.Machine

/-- `LD I, nnn` (R130). -/
def execLdI (nnn : Imm12) (s : State) : Answer := done { s with I := zextImm nnn }

/-- `ADD I, Vx` (R131): modulo 65536, no mask, no flag. -/
def execAddIVx (x : Reg) (s : State) : Answer := done { s with I := s.I + zextByte (s.getV x) }

/-- `LD F, Vx` (R132). -/
def execLdFVx (x : Reg) (s : State) : Answer := done { s with I := glyphAddr (s.getV x) }

/-- `LD B, Vx` (R133). -/
def execLdBVx (x : Reg) (s : State) : Answer :=
  checkRange (.ldBVx x) s.I 3 s fun s => done (s.storeBytes s.I (bcdDigits (s.getV x)))

/-- `LD [I], Vx` (R134): I is unchanged. -/
def execLdMemVx (x : Reg) (s : State) : Answer :=
  checkRange (.ldMemVx x) s.I (x.val + 1) s fun s => done (s.storeBytes s.I (s.regsUpTo x))

/-- `LD Vx, [I]` (R135): I is unchanged. -/
def execLdVxMem (x : Reg) (s : State) : Answer :=
  checkRange (.ldVxMem x) s.I (x.val + 1) s fun s => done (s.loadRegs s.I x)

end Sys2Proof.Machine
end

