-- ==== Sys2Proof/Machine/KeypadTimer.lean ====
section
/-! DEFINITION. Keypad and timer instructions (45_keypad_timer.md). -/

namespace Sys2Proof.Machine

/-- `SKP Vx` (R150). -/
def execSkp (x : Reg) (s : State) : Answer := skipOnKey (.skp x) x (fun held => held) s

/-- `SKNP Vx` (R151). -/
def execSknp (x : Reg) (s : State) : Answer := skipOnKey (.sknp x) x (fun held => !held) s

/-- `LD Vx, DT` (R152). -/
def execLdVxDT (x : Reg) (s : State) : Answer := done (s.setV x s.DT)

/-- `LD DT, Vx` (R153). -/
def execLdDTVx (x : Reg) (s : State) : Answer := done { s with DT := s.getV x }

/-- `LD ST, Vx` (R154). -/
def execLdSTVx (x : Reg) (s : State) : Answer := done { s with ST := s.getV x }

/-- `LD Vx, K` (R155): pc stays at fpc + 2, the keypad mask plays no part. -/
def execLdVxK (x : Reg) (s : State) : Answer := .next ({ s with run := .awaitingKey x }.reply .awaitKey)

end Sys2Proof.Machine
end

