-- ==== Sys2Proof/Machine/HostOps.lean ====
section
/-! DEFINITION. The host's operations other than `step` (40_engine_cycle.md R80): `decrement_timers`, `set_keypad`,
`deliver_key` and the load `new`; and the host's duties (R89). -/

namespace Sys2Proof.Machine

/-- Whether a fatal error has happened (R32). -/
def RunState.isFaulted : RunState → Bool
  | .faulted _ => true
  | .running | .awaitingKey _ => false

/-- An 8-bit counter that stops at 0 (R172). -/
def countDown (t : Byte) : Byte := if t.toNat > 0 then t - 1 else t

/-- `decrement_timers()` (R172): both timers at once, in Running and AwaitingKey; nothing in Faulted. -/
def State.decrementTimers (s : State) : State :=
  if s.run.isFaulted then s else { s with DT := countDown s.DT, ST := countDown s.ST }

/-- `set_keypad(mask)` (R86): nothing in Faulted. -/
def State.setKeypad (s : State) (mask : Word) : State :=
  if s.run.isFaulted then s else { s with keypad := mask }

/-- `deliver_key(value)` (R87): the value as given, and only while awaiting. -/
def State.deliverKey (s : State) (value : Byte) : State :=
  match s.run with
  | .awaitingKey r => { s.setV r value with run := .running }
  | .running | .faulted _ => s

/-- `new(program_bytes)` (70_reset_and_hazards.md R180, R181): the image verbatim at 0x200 in a fresh state, or
`ImageTooLarge`. -/
def newBlock (program : List Byte) : Except LoadError State :=
  if program.length > Config.maxProgramLen then .error (.imageTooLarge program.length)
  else .ok { State.reset with mem := Memory.writeBytes [] Config.programBase program }

/-- The load with the host's read of the file in front of it: a failed read is only passed on (R182; log entry 10). -/
def loadFile (file : Option (List Byte)) : Except LoadError State :=
  match file with
  | none => .error .io
  | some program => newBlock program

/-- `new` taken by a machine that already runs: the old block is discarded (R184), nothing of it survives. The model's own
fields go on: the draws stay fresh, the operations still issued stay issued, the configuration stays the machine's. A failed
load leaves no block (R183; log entry 9). -/
def reload (file : Option (List Byte)) (s : State) : Answer :=
  match loadFile file with
  | .ok t => .next { t with draws := s.draws, issued := s.issued, shiftSource := s.shiftSource }
  | .error e => .fault (.loadFailed e)

/-- The calls that keep the host's duties (R89): no `step` after an error; `deliver_key` only while a key is awaited, and with
a hex key. -/
def HostOp.dutiful (s : State) : HostOp → Bool
  | .step => !s.run.isFaulted
  | .deliverKey value =>
    match s.run with
    | .awaitingKey _ => decide (value.toNat ≤ 0xF)
    | .running | .faulted _ => false
  | .decrementTimers | .setKeypad _ | .new _ => true

end Sys2Proof.Machine
end

