-- ==== Sys2Proof/Machine/Engine.lean ====
section
/-! DEFINITION. The step cycle (40_engine_cycle.md R82-R84): fetch, advance, decode, execute, report; and one operation of
the host's interface (R80, R81). -/

namespace Sys2Proof.Machine

/-- A fetched word: advance, decode, execute, or `InvalidOpcode` (R82, R165). -/
def runWord (op : Word) (s : State) : Answer :=
  match decodeWord op with
  | .ok i => exec i s.advance
  | .error _ => .next (s.advance.raise (.invalidOpcode op) s.pc (some op))

/-- `step()`: in Running the cycle of R82; in AwaitingKey nothing but the effect `AwaitKey` (R83); in Faulted nothing but
the same error again (R84). -/
def engineStep (s : State) : Answer :=
  match s.run with
  | .running =>
    match s.fetchWord with
    | some op => runWord op s
    | none => .next (s.raise (.addressOutOfRange s.pc) s.pc none)
  | .awaitingKey _ => .next (s.reply .awaitKey)
  | .faulted f => .next { s with report := some (.err f.error) }

/-- One operation of the interface, whole, and the block's answer to it in every state (R80, R81), also to a call that the
host must not make (R84, R87). -/
def applyOp (op : HostOp) (s : State) : Answer :=
  match op with
  | .step => engineStep s
  | .decrementTimers => .next s.decrementTimers
  | .setKeypad mask => .next (s.setKeypad mask)
  | .deliverKey value => .next (s.deliverKey value)
  | .new file => reload file s

/-- The move of a host that has issued nothing: it calls `step` (log entry 2), and after an error it has stopped (R89, R92) and
the state stays (R171; log entry 31). -/
def idleOp (s : State) : Answer := if s.run.isFaulted then .next s else applyOp .step s

/-- The machine's next move: the oldest operation issued (R81: "one by one in the order issued") where the host may call it,
no move where it must not (R89; log entry 31). -/
def nextOp (s : State) : Answer :=
  match s.issued with
  | [] => idleOp s
  | op :: rest => if op.dutiful s then applyOp op { s with issued := rest } else .refused (.hostDuty op)

/-- The address `s` fetches from next, or 0x200 where no two bytes stand at `pc` (R47). -/
def State.fetchAddr (s : State) : Word := if outOfRange s.pc 2 then 0x200 else s.pc

/-- `s` with a word where it fetches next, and nothing in the way of the fetch: Running, no host operation before it. -/
def State.placeWord (s : State) (op : Word) : State :=
  { s.storeBytes s.fetchAddr [highByte op, lowByte op] with pc := s.fetchAddr, run := .running, issued := [] }

end Sys2Proof.Machine
end

