-- ==== Sys2Proof/Machine/Step.lean ====
section
/-! DEFINITION. One step of the machine, and placing an instruction for the next one. -/

namespace Sys2Proof.Machine

/-- One step: the next operation the host may call, `step()` itself when it has issued no other (log entries 2, 31). -/
def step (s : State) : Host.Outcome State Fault Refusal := nextOp s

/-- `s` with the instruction of an opcode-table word placed where the next step fetches (log entry 8). -/
def State.withFetchWord (s : State) (nbits w : Nat) : State := s.placeWord (BitVec.ofNat 16 (w % 2 ^ nbits))

end Sys2Proof.Machine
end

