-- ==== Sys2Proof/Assembler.lean ====
section
/-! DEFINITION. The assembler text of R69 (30_encoding.md): one line per word, mnemonic and operands, no pseudo-instruction.
The spec takes this from general knowledge (decision D25, log entry 28); it has no effect on the machine. -/

namespace Sys2Proof.Assembler

/-- An operand as the text writes it (R69): a register, an immediate, or one of the literals `I [I] DT ST K F B`. -/
inductive Operand where
  | reg (r : Reg)
  | num (n : Nat)
  | index
  | memory
  | delay
  | sound
  | key
  | font
  | bcd
  deriving DecidableEq, Repr

/-! ### Reading a line -/

/-- The value of a hex digit, upper case. -/
def digitValue (c : Char) : Option Nat :=
  if '0' ≤ c ∧ c ≤ '9' then some (c.toNat - '0'.toNat)
  else if 'A' ≤ c ∧ c ≤ 'F' then some (c.toNat - 'A'.toNat + 10)
  else none

/-- Digits read in a base, most significant first, onto an accumulator. -/
def readDigits (base : Nat) : Nat → List Char → Option Nat
  | acc, [] => some acc
  | acc, c :: cs =>
    match digitValue c with
    | some d => if d < base then readDigits base (acc * base + d) cs else none
    | none => none

/-- An immediate: hex as `0x2A` or `#2A`, or decimal (R69). -/
def readImmediate : List Char → Option Nat
  | '0' :: 'X' :: c :: cs => readDigits 16 0 (c :: cs)
  | '#' :: c :: cs => readDigits 16 0 (c :: cs)
  | c :: cs => readDigits 10 0 (c :: cs)
  | [] => none

/-- One operand, upper case. -/
def readOperand : List Char → Option Operand
  | ['I'] => some .index
  | ['[', 'I', ']'] => some .memory
  | ['D', 'T'] => some .delay
  | ['S', 'T'] => some .sound
  | ['K'] => some .key
  | ['F'] => some .font
  | ['B'] => some .bcd
  | ['V', d] => (digitValue d).map fun n => .reg (Fin.ofNat 16 n)
  | cs => (readImmediate cs).map .num

/-- The tokens of a line: runs of characters between blanks and commas, the open run held in reverse. -/
def tokens : List Char → List Char → List (List Char)
  | [], [] => []
  | run, [] => [run.reverse]
  | run, c :: cs =>
    if c = ' ' ∨ c = ',' then
      (if run.isEmpty then tokens [] cs else run.reverse :: tokens [] cs)
    else tokens (c.toUpper :: run) cs

/-- Every operand of a line, or none if one cannot be read. -/
def readOperands : List (List Char) → Option (List Operand)
  | [] => some []
  | t :: ts =>
    match readOperand t, readOperands ts with
    | some o, some os => some (o :: os)
    | _, _ => none

/-- `kk` from an immediate that fits 8 bits. -/
def byteOf (n : Nat) : Option Byte := if n < 256 then some (BitVec.ofNat 8 n) else none

/-- `nnn` from an immediate that fits 12 bits. -/
def imm12Of (n : Nat) : Option Imm12 := if n < 4096 then some (BitVec.ofNat 12 n) else none

/-- The `LD` lines of R66. -/
def assembleLd : List Operand → Option Instr
  | [.reg x, .num k] => (byteOf k).map (.ldImm x)
  | [.reg x, .reg y] => some (.ldReg x y)
  | [.index, .num n] => (imm12Of n).map .ldI
  | [.reg x, .delay] => some (.ldVxDT x)
  | [.delay, .reg x] => some (.ldDTVx x)
  | [.sound, .reg x] => some (.ldSTVx x)
  | [.font, .reg x] => some (.ldFVx x)
  | [.bcd, .reg x] => some (.ldBVx x)
  | [.memory, .reg x] => some (.ldMemVx x)
  | [.reg x, .memory] => some (.ldVxMem x)
  | [.reg x, .key] => some (.ldVxK x)
  | _ => none

/-- The instruction of a mnemonic and its operands (R66, R69). -/
def assembleParts (name : String) (ops : List Operand) : Option Instr :=
  match name, ops with
  | "LD", ops => assembleLd ops
  | "CLS", [] => some .cls
  | "RET", [] => some .ret
  | "JP", [.num n] => (imm12Of n).map .jp
  | "JP", [.reg r, .num n] => if r = 0 then (imm12Of n).map .jpV0 else none
  | "CALL", [.num n] => (imm12Of n).map .call
  | "SE", [.reg x, .num k] => (byteOf k).map (.seImm x)
  | "SNE", [.reg x, .num k] => (byteOf k).map (.sneImm x)
  | "SE", [.reg x, .reg y] => some (.seReg x y)
  | "SNE", [.reg x, .reg y] => some (.sneReg x y)
  | "ADD", [.reg x, .num k] => (byteOf k).map (.addImm x)
  | "ADD", [.reg x, .reg y] => some (.addReg x y)
  | "ADD", [.index, .reg x] => some (.addIVx x)
  | "OR", [.reg x, .reg y] => some (.orReg x y)
  | "AND", [.reg x, .reg y] => some (.andReg x y)
  | "XOR", [.reg x, .reg y] => some (.xorReg x y)
  | "SUB", [.reg x, .reg y] => some (.subReg x y)
  | "SUBN", [.reg x, .reg y] => some (.subnReg x y)
  | "SHR", [.reg x] => some (.shr x 0)
  | "SHR", [.reg x, .reg y] => some (.shr x y)
  | "SHL", [.reg x] => some (.shl x 0)
  | "SHL", [.reg x, .reg y] => some (.shl x y)
  | "RND", [.reg x, .num k] => (byteOf k).map (.rnd x)
  | "DRW", [.reg x, .reg y, .num n] => if n ≤ 15 then some (.drw x y n) else none
  | "SKP", [.reg x] => some (.skp x)
  | "SKNP", [.reg x] => some (.sknp x)
  | _, _ => none

/-- The instruction that a line of text is, if it is one. -/
def assemble (line : String) : Option Instr :=
  match tokens [] line.toList with
  | [] => none
  | name :: rest =>
    match readOperands rest with
    | some ops => assembleParts (String.ofList name) ops
    | none => none

/-! ### Writing a line -/

/-- The hex digit of a nibble. -/
def hexDigit (n : Nat) : Char := "0123456789ABCDEF".toList.getD (n % 16) '0'

/-- `0x` and two hex digits. -/
def hexByte (b : Byte) : String := String.ofList ['0', 'x', hexDigit (b.toNat / 16), hexDigit b.toNat]

/-- `0x` and three hex digits. -/
def hexAddr (a : Imm12) : String :=
  String.ofList ['0', 'x', hexDigit (a.toNat / 256), hexDigit (a.toNat / 16), hexDigit a.toNat]

/-- `V0` to `VF`. -/
def regName (r : Reg) : String := String.ofList ['V', hexDigit r.val]

/-- A mnemonic with one, two or three operands. -/
def line1 (name a : String) : String := name ++ " " ++ a
def line2 (name a b : String) : String := line1 name a ++ ", " ++ b
def line3 (name a b c : String) : String := line2 name a b ++ ", " ++ c

/-- The line of an instruction (R69), the first operand the destination where there is one. -/
def text : Instr → String
  | .cls => "CLS"
  | .ret => "RET"
  | .jp nnn => line1 "JP" (hexAddr nnn)
  | .call nnn => line1 "CALL" (hexAddr nnn)
  | .seImm x kk => line2 "SE" (regName x) (hexByte kk)
  | .sneImm x kk => line2 "SNE" (regName x) (hexByte kk)
  | .seReg x y => line2 "SE" (regName x) (regName y)
  | .sneReg x y => line2 "SNE" (regName x) (regName y)
  | .ldImm x kk => line2 "LD" (regName x) (hexByte kk)
  | .addImm x kk => line2 "ADD" (regName x) (hexByte kk)
  | .ldReg x y => line2 "LD" (regName x) (regName y)
  | .orReg x y => line2 "OR" (regName x) (regName y)
  | .andReg x y => line2 "AND" (regName x) (regName y)
  | .xorReg x y => line2 "XOR" (regName x) (regName y)
  | .addReg x y => line2 "ADD" (regName x) (regName y)
  | .subReg x y => line2 "SUB" (regName x) (regName y)
  | .shr x y => line2 "SHR" (regName x) (regName y)
  | .subnReg x y => line2 "SUBN" (regName x) (regName y)
  | .shl x y => line2 "SHL" (regName x) (regName y)
  | .ldI nnn => line2 "LD" "I" (hexAddr nnn)
  | .jpV0 nnn => line2 "JP" "V0" (hexAddr nnn)
  | .rnd x kk => line2 "RND" (regName x) (hexByte kk)
  | .drw x y n => line3 "DRW" (regName x) (regName y) ("0x" ++ String.ofList [hexDigit n])
  | .skp x => line1 "SKP" (regName x)
  | .sknp x => line1 "SKNP" (regName x)
  | .ldVxDT x => line2 "LD" (regName x) "DT"
  | .ldDTVx x => line2 "LD" "DT" (regName x)
  | .ldSTVx x => line2 "LD" "ST" (regName x)
  | .addIVx x => line2 "ADD" "I" (regName x)
  | .ldFVx x => line2 "LD" "F" (regName x)
  | .ldBVx x => line2 "LD" "B" (regName x)
  | .ldMemVx x => line2 "LD" "[I]" (regName x)
  | .ldVxMem x => line2 "LD" (regName x) "[I]"
  | .ldVxK x => line2 "LD" (regName x) "K"

end Sys2Proof.Assembler
end

