-- ==== Sys2Proof/Safety.lean ====
section
/-! DEFINITION. What counts as a safe run, in the terms the statements use: finished and failed states
(40_engine_cycle.md R92), the host's duties over a sequence of calls (R89), the model's invariants, and frames. -/

namespace Sys2Proof.Machine

/-! ### Ends of a run -/

/-- A failed state: `run == Faulted(f)` (R92). -/
def State.failed (s : State) : Bool := s.run.isFaulted

/-- A finished state: Running, and the word at pc is the jump to pc itself, `0x1000 | pc` with `pc ≤ 0xFFE` (R92; the
spec's own definition, decision D24, log entry 26). -/
def State.finished (s : State) : Prop :=
  s.run = .running ∧ s.pc.toNat ≤ 0xFFE ∧ s.fetchWord = some (0x1000 ||| s.pc)

/-- The host's operations applied one by one in the order issued, until one leaves no state (R81). -/
def applyAll : List HostOp → State → Answer
  | [], s => .next s
  | op :: rest, s =>
    match applyOp op s with
    | .next t => applyAll rest t
    | .fault r => .fault r
    | .refused r => .refused r

/-- Every call of the sequence keeps the host's duties in the state that the calls before it leave (R89). -/
def dutifulAll : List HostOp → State → Prop
  | [], _ => True
  | op :: rest, s => op.dutiful s = true ∧ ∀ t, applyOp op s = .next t → dutifulAll rest t

/-! ### Invariants -/

/-- Memory is in its canonical form. -/
def State.memoryCanonical (s : State) : Prop := s.mem.wf = true

/-- pc is at most 0x10FE ("The rules never carry pc past 0x10FE", 10_state.md R24), and every call-stack entry is a return
address that a `CALL` fetched at 0xFFE or below pushes. -/
def State.pcBounded (s : State) : Prop := s.pc.toNat ≤ 0x10FE ∧ ∀ j : Fin 16, s.stack[j].toNat ≤ 0x1000

/-- What the last step returned agrees with the run state: a wait was reported `AwaitKey`, so that the host's condition on
`deliver_key` (R89: "only while the last effect was `AwaitKey` and no `deliver_key` has followed") is the run state's; a fault
was reported as its error (R163). -/
def State.reportAgrees (s : State) : Prop :=
  (∀ r, s.run = .awaitingKey r → s.report = some (.ok .awaitKey)) ∧
  ∀ f, s.run = .faulted f → s.report = some (.err f.error)

/-! ### Frames -/

/-- What an instruction may write besides pc and the step's report; everything not named stays. -/
structure Touched where
  regs : List Reg := []
  index : Bool := false
  slots : List Nat := []
  sp : Bool := false
  disp : Bool := false
  delay : Bool := false
  sound : Bool := false
  run : Bool := false
  draws : Bool := false
  bytes : List Nat := []

/-- From s to t nothing changed but what k names (and pc, and the step's report). The keypad and the
configuration are in no `Touched`: no instruction writes them (10_state.md R31, 00_scope.md R6). -/
structure Frame (k : Touched) (s t : State) : Prop where
  regs : ∀ r : Reg, r ∉ k.regs → t.getV r = s.getV r
  index : k.index = false → t.I = s.I
  slots : ∀ j : Fin 16, j.val ∉ k.slots → t.stack[j] = s.stack[j]
  sp : k.sp = false → t.SP = s.SP
  disp : k.disp = false → t.disp = s.disp
  delay : k.delay = false → t.DT = s.DT
  sound : k.sound = false → t.ST = s.ST
  keypad : t.keypad = s.keypad
  run : k.run = false → t.run = s.run
  draws : k.draws = false → t.draws = s.draws
  bytes : ∀ a : Nat, a ∉ k.bytes → t.readByte a = s.readByte a
  issued : t.issued = s.issued
  source : t.shiftSource = s.shiftSource

/-- The registers an instruction may write when it executes: its destination, VF where the spec makes VF an output
(10_state.md R22), the range V0..Vx of a register load (R135). `LD Vx, K` writes none: V[x] is written when the key is
delivered (R155, R87). -/
def Instr.writesReg : Instr → Reg → Bool
  | .ldImm x _, r | .addImm x _, r | .rnd x _, r | .ldVxDT x, r => decide (r = x)
  | .ldReg x _, r | .orReg x _, r | .andReg x _, r | .xorReg x _, r => decide (r = x)
  | .addReg x _, r | .subReg x _, r | .subnReg x _, r | .shr x _, r | .shl x _, r => decide (r = x ∨ r = VF)
  | .drw _ _ _, r => decide (r = VF)
  | .ldVxMem x, r => decide (r ≤ x)
  | .cls, _ | .ret, _ | .jp _, _ | .call _, _ | .jpV0 _, _ => false
  | .seImm _ _, _ | .sneImm _ _, _ | .seReg _ _, _ | .sneReg _ _, _ | .skp _, _ | .sknp _, _ => false
  | .ldI _, _ | .addIVx _, _ | .ldFVx _, _ | .ldBVx _, _ | .ldMemVx _, _ => false
  | .ldDTVx _, _ | .ldSTVx _, _ | .ldVxK _, _ => false

/-- Whether an instruction may write pc: the transfers of control and the skips (41_control_flow.md, 45_keypad_timer.md). -/
def Instr.writesPc : Instr → Bool
  | .ret | .jp _ | .call _ | .jpV0 _ => true
  | .seImm _ _ | .sneImm _ _ | .seReg _ _ | .sneReg _ _ | .skp _ | .sknp _ => true
  | .cls | .drw _ _ _ => false
  | .ldImm _ _ | .addImm _ _ | .rnd _ _ | .ldReg _ _ | .orReg _ _ | .andReg _ _ | .xorReg _ _ => false
  | .addReg _ _ | .subReg _ _ | .subnReg _ _ | .shr _ _ | .shl _ _ => false
  | .ldI _ | .addIVx _ | .ldFVx _ | .ldBVx _ | .ldMemVx _ | .ldVxMem _ => false
  | .ldVxDT _ | .ldDTVx _ | .ldSTVx _ | .ldVxK _ => false

/-! ### Errors and sprites as the statements name them -/

/-- The one error an instruction's own check can raise, and when (60_exceptions.md R161, R166-R170). -/
def ownError (i : Instr) (s : State) : Option ExecutionError :=
  match i with
  | .call _ => if s.SP = 16 then some .stackOverflow else none
  | .ret => if s.SP = 0 then some .stackUnderflow else none
  | .drw _ _ n => if n > 0 ∧ s.I.toNat + n - 1 > 0xFFF then some (.addressOutOfRange s.I) else none
  | .ldBVx _ => if s.I.toNat + 2 > 0xFFF then some (.addressOutOfRange s.I) else none
  | .ldMemVx x => if s.I.toNat + x.val > 0xFFF then some (.addressOutOfRange s.I) else none
  | .ldVxMem x => if s.I.toNat + x.val > 0xFFF then some (.addressOutOfRange s.I) else none
  | .skp x => if (s.getV x).toNat > 0x0F then some (.keyOutOfRange (s.getV x)) else none
  | .sknp x => if (s.getV x).toNat > 0x0F then some (.keyOutOfRange (s.getV x)) else none
  | .cls | .jp _ | .jpV0 _ | .seImm _ _ | .sneImm _ _ | .seReg _ _ | .sneReg _ _ => none
  | .ldImm _ _ | .addImm _ _ | .rnd _ _ | .ldReg _ _ | .orReg _ _ | .andReg _ _ | .xorReg _ _ => none
  | .addReg _ _ | .subReg _ _ | .subnReg _ _ | .shr _ _ | .shl _ _ => none
  | .ldI _ | .addIVx _ | .ldFVx _ | .ldVxDT _ | .ldDTVx _ | .ldSTVx _ | .ldVxK _ => none

/-- Whether a lit bit of the sprite of `DRW Vx, Vy, n` lands on pixel (px, py): bit `7 - j` of row k lands on
`((Vx + j) mod 64, (Vy + k) mod 32)` (44_display.md R142). -/
def spriteLit (s : State) (x y : Reg) (n : Nat) (px : Fin 64) (py : Fin 32) : Prop :=
  ∃ k < n, ∃ j < 8, ((s.getV x).toNat + j) % 64 = px.val ∧ ((s.getV y).toNat + k) % 32 = py.val ∧
    (s.readByte (s.I.toNat + k)).getLsbD (7 - j) = true

/-- The addresses of the n bytes from addr upward, the exact sums of R136. -/
def span (addr : Word) (n : Nat) : List Nat := (List.range n).map fun k => addr.toNat + k

end Sys2Proof.Machine
end

