-- ==== Sys2Proof/Certificates/Slice0/Obligations.lean ====
section
/-! DEFINITION. The statements about the machine, for the provers. Each docstring names the rules of spec/ it rests on, and
the spec's own decisions D<n> or the model's log entries where a clause rests on one. -/

open Sys2Proof Sys2Proof.Machine

/-! ### Encoding (30_encoding.md) -/

/-- Decoding the word of a well-formed instruction gives it back, with every operand at every value its field admits; so
does decoding its bytes in front of any others (R60, R61, R63, R66). -/
def Obligations.DecodeOfEncodeIsTheInstruction : Prop :=
  ∀ i : Instr, i.wf = true →
    decodeWord (encode i) = .ok i ∧ ∀ rest : List Byte, decode (encodeBytes i ++ rest) = .ok (i, rest)

/-- A word that decodes is the word of the instruction it decodes to, and that instruction is well formed (R63, R66). -/
def Obligations.EncodeOfDecodeIsTheWord : Prop :=
  ∀ (w : Word) (i : Instr), decodeWord w = .ok i → encode i = w ∧ i.wf = true

/-- The decoder is the opcode map: 34 rows, no word on two of them, a word on a row decodes to that row's instruction, a
word on no row is invalid (R63, derived by the spec from the table of R66). -/
def Obligations.DecoderFollowsTheOpcodeMap : Prop :=
  opcodeMap.length = 34 ∧
  opcodeMap.Pairwise (fun p q => ∀ w : Word, ¬ (w &&& p.mask = p.bits ∧ w &&& q.mask = q.bits)) ∧
  ∀ w : Word,
    (∀ r ∈ opcodeMap, w &&& r.mask = r.bits → ∃ i, decodeWord w = .ok i ∧ i.mnemonic = r.mnemonic) ∧
    ((∀ r ∈ opcodeMap, w &&& r.mask ≠ r.bits) → decodeWord w = .error (.invalidOpcode w))

/-- The invalid words are exactly those R64 lists, each rejected with the raw word (R64, R65; derived by the spec from R66). -/
def Obligations.InvalidWordsAreThoseListed : Prop :=
  ∀ w : Word,
    (∀ e, decodeWord w = .error e → e = .invalidOpcode w) ∧
    (decodeWord w = .error (.invalidOpcode w) ↔
      (w.toNat < 0x1000 ∧ w.toNat ≠ 0x00E0 ∧ w.toNat ≠ 0x00EE) ∨
      (w.toNat / 4096 = 0x5 ∧ w.toNat % 16 ≠ 0) ∨
      (w.toNat / 4096 = 0x8 ∧ w.toNat % 16 ∈ [0x8, 0x9, 0xA, 0xB, 0xC, 0xD, 0xF]) ∨
      (w.toNat / 4096 = 0x9 ∧ w.toNat % 16 ≠ 0) ∨
      (w.toNat / 4096 = 0xE ∧ w.toNat % 256 ∉ [0x9E, 0xA1]) ∨
      (w.toNat / 4096 = 0xF ∧ w.toNat % 256 ∉ [0x07, 0x0A, 0x15, 0x18, 0x1E, 0x29, 0x33, 0x55, 0x65]))

/-- Words written out from the spec's patterns decode to the instructions they stand for, one of each family (R66, the
examples of files 41 to 45). -/
def Obligations.WordsOfEachFamilyDecode : Prop :=
  decodeWord 0x00EE = .ok .ret ∧ decodeWord 0x1234 = .ok (.jp 0x234) ∧ decodeWord 0x332A = .ok (.seImm 3 0x2A) ∧
  decodeWord 0x9120 = .ok (.sneReg 1 2) ∧ decodeWord 0x8E04 = .ok (.addReg 14 0) ∧ decodeWord 0x812E = .ok (.shl 1 2) ∧
  decodeWord 0xC30F = .ok (.rnd 3 0x0F) ∧ decodeWord 0xA300 = .ok (.ldI 0x300) ∧ decodeWord 0xF265 = .ok (.ldVxMem 2) ∧
  decodeWord 0xD125 = .ok (.drw 1 2 5) ∧ decodeWord 0xE09E = .ok (.skp 0) ∧ decodeWord 0xF30A = .ok (.ldVxK 3) ∧
  decodeWord 0x5001 = .error (.invalidOpcode 0x5001)

/-! ### The step cycle (40_engine_cycle.md) -/

/-- R82. Running, with no host operation waiting (the queue is the model's own, log entry 2): a fetch past 0xFFE faults with
pc unchanged; otherwise pc advances by 2 and the big-endian word at the old pc is executed, or faults `InvalidOpcode` when
it decodes to nothing. The state and the record of the two faults are R162 and R163 (decisions D8, D10, D33; log entry 3). -/
def Obligations.StepRunsTheDecodedInstruction : Prop :=
  ∀ s : State, s.run = .running → s.issued = [] →
    (s.pc.toNat > 0xFFE →
      step s = .next { s with
        run := .faulted ⟨.addressOutOfRange s.pc, s.pc, none⟩, report := some (.err (.addressOutOfRange s.pc)) }) ∧
    (s.pc.toNat ≤ 0xFFE → ∀ w : Word, w = s.readByte s.pc.toNat ++ s.readByte (s.pc.toNat + 1) →
      (∀ i, decodeWord w = .ok i → step s = exec i { s with pc := s.pc + 2 }) ∧
      (∀ e, decodeWord w = .error e →
        step s = .next { s with
          pc := s.pc + 2, run := .faulted ⟨.invalidOpcode w, s.pc, some w⟩, report := some (.err (.invalidOpcode w)) }))

/-- R81. The machine run over operations that the host may issue (R89) does what they do applied one by one in that order,
each whole, and stops where one of them leaves no state. With none issued, a step is the operation `step` of R80; after an
error, where the host has stopped, it leaves the state as it is. The queue, and the rest when nothing is issued, are the
model's own (log entries 2, 31). -/
def Obligations.OperationsAreTakenInTheOrderIssued : Prop :=
  (∀ s : State, dutifulAll s.issued { s with issued := [] } →
    Host.Core.run Sys2Proof.core s.issued.length s = applyAll s.issued { s with issued := [] }) ∧
  (∀ s : State, s.issued = [] → s.run.isFaulted = false → step s = applyOp .step s) ∧
  ∀ s : State, s.issued = [] → s.run.isFaulted = true → step s = .next s

/-- R89. The calls the host may make: `step` until an error; `deliver_key` only while a key is awaited and with a hex key
0x0..0xF; the timers, the mask and `new` at any time (the range of keys and the liberties are decisions D19, D20). An issued
operation is taken, whole, where the host may call it; where it must not, the machine has no move (log entry 31; U21: "the host
has no such move"). -/
def Obligations.HostHasNoForbiddenMove : Prop :=
  ∀ s : State,
    (∀ op rest, s.issued = op :: rest →
      (op.dutiful s = true → step s = applyOp op { s with issued := rest }) ∧
      (op.dutiful s = false → step s = .refused (.hostDuty op))) ∧
    (HostOp.dutiful s .step = true ↔ ∀ f, s.run ≠ .faulted f) ∧
    (∀ v, HostOp.dutiful s (.deliverKey v) = true ↔ (∃ r, s.run = .awaitingKey r) ∧ v.toNat ≤ 0xF) ∧
    HostOp.dutiful s .decrementTimers = true ∧
    (∀ m, HostOp.dutiful s (.setKeypad m) = true) ∧ ∀ file, HostOp.dutiful s (.new file) = true

/-- An opcode placed for the next step is what the next step runs, wherever the machine stands and whatever the host has
issued; and the host's reading of an opcode-table word is the decoder's (log entry 8). -/
def Obligations.PlacedWordIsTheNextInstruction : Prop :=
  (∀ w : Word, decodeTableWord 16 w.toNat = (decodeWord w).toOption) ∧
  ∀ (s : State) (w : Word) (i : Instr), s.memoryCanonical → decodeWord w = .ok i →
    step (s.withFetchWord 16 w.toNat) =
      exec i { s.withFetchWord 16 w.toNat with pc := (s.withFetchWord 16 w.toNat).pc + 2 }

/-- R83. A step while a key is awaited changes nothing and reports `AwaitKey` (the effect is the spec's decision D18). -/
def Obligations.StepWhileAwaitingChangesNothing : Prop :=
  ∀ (s : State) (r : Reg), s.run = .awaitingKey r → s.issued = [] →
    step s = .next { s with report := some (.ok .awaitKey) }

/-- R84, R86, R87, R163, R171, R172. Faulted is absorbing: however many operations but `new` the block is given, in any order,
nothing changes, and `step` returns the same error again (the spec's decision D10). So the machine that takes the operations
still allowed then (R89) changes nothing, and neither does its rest after them (log entries 2, 31). -/
def Obligations.FaultedIsAbsorbing : Prop :=
  (∀ (s : State) (f : FaultRecord) (ops : List HostOp), s.run = .faulted f → (∀ file, HostOp.new file ∉ ops) →
    applyAll ops s = .next { s with report := if HostOp.step ∈ ops then some (.err f.error) else s.report }) ∧
  (∀ s : State, s.run.isFaulted = true → (∀ op ∈ s.issued, op = .decrementTimers ∨ ∃ m, op = .setKeypad m) →
    Host.Core.run Sys2Proof.core s.issued.length s = .next { s with issued := [] }) ∧
  ∀ s : State, s.run.isFaulted = true → s.issued = [] → step s = .next s

/-- R88. The transitions of the run state under every operation but `new`, and no others: a step of `LD Vx, K` always waits,
a step of any other word runs on or faults (the rows for stray events and for
Faulted are the spec's decisions D10, D19, D27). -/
def Obligations.RunStateTransitions : Prop :=
  ∀ (s t : State) (op : HostOp), (∀ file, op ≠ .new file) → applyOp op s = .next t →
    (s.run = .running → op = .step →
      (t.run = .running ∧ ∀ x, s.fetchWord ≠ some (encode (.ldVxK x))) ∨
      (∃ x, s.fetchWord = some (encode (.ldVxK x)) ∧
        t = { s with pc := s.pc + 2, run := .awaitingKey x, report := some (.ok .awaitKey) }) ∨
      ∃ f, t.run = .faulted f ∧ ∀ x, s.fetchWord ≠ some (encode (.ldVxK x))) ∧
    (s.run = .running → op ≠ .step → t.run = .running) ∧
    (s.run = .running → ∀ v, op = .deliverKey v → t = s) ∧
    (∀ r, s.run = .awaitingKey r →
      (op = .step → t = { s with report := some (.ok .awaitKey) }) ∧
      (∀ v, op = .deliverKey v → t = { s.setV r v with run := .running }) ∧
      (∀ m, op = .setKeypad m → t = { s with keypad := m }) ∧
      (op = .decrementTimers → t = s.decrementTimers ∧ t.run = .awaitingKey r)) ∧
    (∀ f, s.run = .faulted f → t = { s with report := t.report })

/-- R162, R163, R164. A step that faults leaves everything as it was but pc, `run` and what it returns: pc advanced unless
the fetch itself failed, the record holding the fetch address and the word fetched (decisions D10, D33). -/
def Obligations.FaultsArePrecise : Prop :=
  ∀ (s t : State) (f : FaultRecord), s.run = .running → s.issued = [] → step s = .next t → t.run = .faulted f →
    f.fetchPc = s.pc ∧ f.opcode = s.fetchWord ∧
    t = { s with
      pc := if s.fetchWord = none then s.pc else s.pc + 2, run := .faulted f, report := some (.err f.error) }

/-- R161, R166-R170. An instruction's own check: where it fails, the instruction does nothing but enter Faulted with that
error, the fetch address pc - 2 and its own word; where it holds, the instruction executes (decisions D5, D6, D16; the
record's address and word are log entry 4). -/
def Obligations.OwnErrorsExactlyWhenChecked : Prop :=
  ∀ (i : Instr) (s : State),
    (∀ e, ownError i s = some e →
      exec i s = .next { s with run := .faulted ⟨e, s.pc - 2, some (encode i)⟩, report := some (.err e) }) ∧
    (ownError i s = none → s.run = .running → ∃ t, exec i s = .next t ∧ ∀ f, t.run ≠ .faulted f)

/-- R160, R174, R183, R89. No instruction ever leaves the machine without a state. A step does so only when a load fails; and
the machine has no move only where the operation issued is one that the host must never call (log entry 31). -/
def Obligations.OnlyAFailedLoadStopsTheMachine : Prop :=
  (∀ (i : Instr) (s : State), ∃ t, exec i s = .next t) ∧
  ∀ s : State,
    (∀ r, step s = .refused r → ∃ op rest, s.issued = op :: rest ∧ op.dutiful s = false ∧ r = .hostDuty op) ∧
    ∀ r, step s = .fault r → ∃ file rest e, s.issued = .new file :: rest ∧ loadFile file = .error e ∧ r = .loadFailed e

/-! ### Control flow (41_control_flow.md) -/

/-- R102, R108. `JP nnn` and `JP V0, nnn`: the new pc; nothing else changes. -/
def Obligations.JumpResults : Prop :=
  ∀ (nnn : Imm12) (s : State),
    (∃ t, exec (.jp nnn) s = .next t ∧ t.pc.toNat = nnn.toNat ∧ t.report = some (.ok .none) ∧ Frame {} s t) ∧
    (∃ t, exec (.jpV0 nnn) s = .next t ∧ t.pc.toNat = nnn.toNat + (s.getV 0).toNat ∧
      t.report = some (.ok .none) ∧ Frame {} s t)

/-- R103. `CALL nnn` below 16 entries pushes pc, which is fpc + 2, and jumps; only the slot pushed and SP change. At 16
entries it raises `StackOverflow` (R166, decision D5), which leaves the state and the record of R162 and R163 (decisions
D10, D33; the record's address and word are log entry 4). -/
def Obligations.CallResult : Prop :=
  ∀ (nnn : Imm12) (s : State),
    (s.SP.val < 16 → ∃ t, exec (.call nnn) s = .next t ∧ t.pc.toNat = nnn.toNat ∧ t.SP.val = s.SP.val + 1 ∧
      (∀ j : Fin 16, j.val = s.SP.val → t.stack[j] = s.pc) ∧ t.report = some (.ok .none) ∧
      Frame { slots := [s.SP.val], sp := true } s t) ∧
    (s.SP.val = 16 → exec (.call nnn) s = .next { s with
      run := .faulted ⟨.stackOverflow, s.pc - 2, some (encode (.call nnn))⟩, report := some (.err .stackOverflow) })

/-- R101. `RET` with an entry on the stack pops it into pc, exactly as pushed, and clears nothing. With none it raises
`StackUnderflow` (R167, decision D5), which leaves the state and the record of R162 and R163 (decisions D10, D33; the
record's address and word are log entry 4). -/
def Obligations.RetResult : Prop :=
  ∀ s : State,
    (0 < s.SP.val → ∃ t, exec .ret s = .next t ∧ t.SP.val = s.SP.val - 1 ∧
      (∀ j : Fin 16, j.val = s.SP.val - 1 → t.pc = s.stack[j]) ∧ t.report = some (.ok .none) ∧
      Frame { sp := true } s t) ∧
    (s.SP.val = 0 → exec .ret s = .next { s with
      run := .faulted ⟨.stackUnderflow, s.pc - 2, some (encode .ret)⟩, report := some (.err .stackUnderflow) })

/-- R103, R101, S7. A `CALL` and then the `RET` at its target come back to the instruction after the call, with the stack
pointer where it was. -/
def Obligations.CallThenRetComesBack : Prop :=
  ∀ (s : State) (nnn : Imm12), s.run = .running → s.issued = [] → s.SP.val < 16 →
    s.fetchWord = some (encode (.call nnn)) → ({ s with pc := zextImm nnn } : State).fetchWord = some (encode .ret) →
    ∃ t u, step s = .next t ∧ t.pc = zextImm nnn ∧ step t = .next u ∧ u.pc = s.pc + 2 ∧ u.SP = s.SP ∧
      u.run = .running ∧ u.report = some (.ok .none) ∧ Frame { slots := [s.SP.val] } s u

/-- R104-R107, R100. The four register skips: pc advances by 2 more exactly when the tested condition holds; nothing else
changes. -/
def Obligations.SkipResults : Prop :=
  ∀ (x y : Reg) (kk : Byte) (s : State),
    (∃ t, exec (.seImm x kk) s = .next t ∧ t.pc = (if s.getV x = kk then s.pc + 2 else s.pc) ∧
      t.report = some (.ok .none) ∧ Frame {} s t) ∧
    (∃ t, exec (.sneImm x kk) s = .next t ∧ t.pc = (if s.getV x = kk then s.pc else s.pc + 2) ∧
      t.report = some (.ok .none) ∧ Frame {} s t) ∧
    (∃ t, exec (.seReg x y) s = .next t ∧ t.pc = (if s.getV x = s.getV y then s.pc + 2 else s.pc) ∧
      t.report = some (.ok .none) ∧ Frame {} s t) ∧
    (∃ t, exec (.sneReg x y) s = .next t ∧ t.pc = (if s.getV x = s.getV y then s.pc else s.pc + 2) ∧
      t.report = some (.ok .none) ∧ Frame {} s t)

/-- R92. In a finished state every step leaves the machine as it is and returns `None` (finished is the spec's own term,
decision D24). -/
def Obligations.FinishedStateStaysFinished : Prop :=
  ∀ s : State, s.finished → s.issued = [] →
    step s = .next { s with report := some (.ok .none) } ∧
    State.finished { s with report := some (.ok .none) }

/-! ### Register load, arithmetic and logic (42_alu.md) -/

/-- R112, R113. `LD Vx, kk` and `ADD Vx, kk`: the destination's new value, VF included as a destination, and nothing else. -/
def Obligations.ImmediateResults : Prop :=
  ∀ (x : Reg) (kk : Byte) (s : State),
    (∃ t, exec (.ldImm x kk) s = .next t ∧ t.getV x = kk ∧ t.pc = s.pc ∧ t.report = some (.ok .none) ∧
      Frame { regs := [x] } s t) ∧
    (∃ t, exec (.addImm x kk) s = .next t ∧ (t.getV x).toNat = ((s.getV x).toNat + kk.toNat) % 256 ∧ t.pc = s.pc ∧
      t.report = some (.ok .none) ∧ Frame { regs := [x] } s t)

/-- R114-R117. Move, OR, AND, XOR: the destination's new value, bit by bit, and nothing else: VF is not written. -/
def Obligations.MoveAndLogicResults : Prop :=
  ∀ (x y : Reg) (s : State),
    (∃ t, exec (.ldReg x y) s = .next t ∧ t.getV x = s.getV y ∧ t.pc = s.pc ∧ t.report = some (.ok .none) ∧
      Frame { regs := [x] } s t) ∧
    (∃ t, exec (.orReg x y) s = .next t ∧
      (∀ b, (t.getV x).getLsbD b = ((s.getV x).getLsbD b || (s.getV y).getLsbD b)) ∧ t.pc = s.pc ∧
      t.report = some (.ok .none) ∧ Frame { regs := [x] } s t) ∧
    (∃ t, exec (.andReg x y) s = .next t ∧
      (∀ b, (t.getV x).getLsbD b = ((s.getV x).getLsbD b && (s.getV y).getLsbD b)) ∧ t.pc = s.pc ∧
      t.report = some (.ok .none) ∧ Frame { regs := [x] } s t) ∧
    (∃ t, exec (.xorReg x y) s = .next t ∧
      (∀ b, (t.getV x).getLsbD b = ((s.getV x).getLsbD b ^^ (s.getV y).getLsbD b)) ∧ t.pc = s.pc ∧
      t.report = some (.ok .none) ∧ Frame { regs := [x] } s t)

/-- R118, R110. `ADD Vx, Vy` with x other than F: the sum modulo 256, then VF the carry of the exact sum. -/
def Obligations.AddRegistersResult : Prop :=
  ∀ (x y : Reg) (s : State), x ≠ VF →
    ∃ t, exec (.addReg x y) s = .next t ∧
      (t.getV x).toNat = ((s.getV x).toNat + (s.getV y).toNat) % 256 ∧
      t.getV VF = (if (s.getV x).toNat + (s.getV y).toNat > 255 then 1 else 0) ∧
      t.pc = s.pc ∧ t.report = some (.ok .none) ∧ Frame { regs := [x, VF] } s t

/-- R119, R120, R110. `SUB` and `SUBN` with x other than F: the difference modulo 256, then VF 1 exactly when the minuend is
strictly greater, so 0 on equal operands. -/
def Obligations.SubtractResults : Prop :=
  ∀ (x y : Reg) (s : State), x ≠ VF →
    (∃ t, exec (.subReg x y) s = .next t ∧
      (t.getV x).toNat = ((s.getV x).toNat + 256 - (s.getV y).toNat) % 256 ∧
      t.getV VF = (if (s.getV x).toNat > (s.getV y).toNat then 1 else 0) ∧
      t.pc = s.pc ∧ t.report = some (.ok .none) ∧ Frame { regs := [x, VF] } s t) ∧
    (∃ t, exec (.subnReg x y) s = .next t ∧
      (t.getV x).toNat = ((s.getV y).toNat + 256 - (s.getV x).toNat) % 256 ∧
      t.getV VF = (if (s.getV y).toNat > (s.getV x).toNat then 1 else 0) ∧
      t.pc = s.pc ∧ t.report = some (.ok .none) ∧ Frame { regs := [x, VF] } s t)

/-- R121, R122, R6, R68. `SHR` and `SHL` with x other than F, on a machine with the default `SHIFT_SOURCE = Vx`: the value
shifted by one and VF the bit shifted out, whatever y is (that State holds the configuration is log entry 30). -/
def Obligations.ShiftResults : Prop :=
  ∀ (x y : Reg) (s : State), s.shiftSource = .vx → x ≠ VF →
    (∃ t, exec (.shr x y) s = .next t ∧ (t.getV x).toNat = (s.getV x).toNat / 2 ∧
      (t.getV VF).toNat = (s.getV x).toNat % 2 ∧ t.pc = s.pc ∧ t.report = some (.ok .none) ∧
      Frame { regs := [x, VF] } s t) ∧
    (∃ t, exec (.shl x y) s = .next t ∧ (t.getV x).toNat = 2 * (s.getV x).toNat % 256 ∧
      (t.getV VF).toNat = (s.getV x).toNat / 128 ∧ t.pc = s.pc ∧ t.report = some (.ok .none) ∧
      Frame { regs := [x, VF] } s t)

/-- R121, R122, R6. `SHR` and `SHL` on a machine with the other admitted configuration, `SHIFT_SOURCE = Vy` (decision D23):
V[y] is shifted into V[x] and VF takes the bit shifted out of V[y]; with x = F only that bit is left (decision D11). That State
holds the configuration is log entry 30. -/
def Obligations.ShiftResultsUnderVy : Prop :=
  ∀ (x y : Reg) (s : State), s.shiftSource = .vy →
    (∃ t, exec (.shr x y) s = .next t ∧ (x ≠ VF → (t.getV x).toNat = (s.getV y).toNat / 2) ∧
      (t.getV VF).toNat = (s.getV y).toNat % 2 ∧ t.pc = s.pc ∧ t.report = some (.ok .none) ∧
      Frame { regs := [x, VF] } s t) ∧
    (∃ t, exec (.shl x y) s = .next t ∧ (x ≠ VF → (t.getV x).toNat = 2 * (s.getV y).toNat % 256) ∧
      (t.getV VF).toNat = (s.getV y).toNat / 128 ∧ t.pc = s.pc ∧ t.report = some (.ok .none) ∧
      Frame { regs := [x, VF] } s t)

/-- R111. With x = F each flag-setting instruction leaves the flag in VF and the result is lost (the spec's decision D11,
log entry 19), the shifts under either value of `SHIFT_SOURCE` (R6; log entry 30). -/
def Obligations.FlagIsWrittenLast : Prop :=
  ∀ (y : Reg) (s : State),
    (∃ t, exec (.addReg VF y) s = .next t ∧ Frame { regs := [VF] } s t ∧ t.pc = s.pc ∧
      t.report = some (.ok .none) ∧
      t.getV VF = (if (s.getV VF).toNat + (s.getV y).toNat > 255 then 1 else 0)) ∧
    (∃ t, exec (.subReg VF y) s = .next t ∧ Frame { regs := [VF] } s t ∧ t.pc = s.pc ∧
      t.report = some (.ok .none) ∧
      t.getV VF = (if (s.getV VF).toNat > (s.getV y).toNat then 1 else 0)) ∧
    (∃ t, exec (.subnReg VF y) s = .next t ∧ Frame { regs := [VF] } s t ∧ t.pc = s.pc ∧
      t.report = some (.ok .none) ∧
      t.getV VF = (if (s.getV y).toNat > (s.getV VF).toNat then 1 else 0)) ∧
    (∃ t, exec (.shr VF y) s = .next t ∧ Frame { regs := [VF] } s t ∧ t.pc = s.pc ∧
      t.report = some (.ok .none) ∧
      (s.shiftSource = .vx → (t.getV VF).toNat = (s.getV VF).toNat % 2) ∧
      (s.shiftSource = .vy → (t.getV VF).toNat = (s.getV y).toNat % 2)) ∧
    (∃ t, exec (.shl VF y) s = .next t ∧ Frame { regs := [VF] } s t ∧ t.pc = s.pc ∧
      t.report = some (.ok .none) ∧
      (s.shiftSource = .vx → (t.getV VF).toNat = (s.getV VF).toNat / 128) ∧
      (s.shiftSource = .vy → (t.getV VF).toNat = (s.getV y).toNat / 128))

/-- R123, R7. `RND Vx, kk` leaves the drawn byte masked by kk, so no bit outside kk; the meaning admits every drawn byte.
The draw is the model's free value (log entry 5): the statement holds whatever it is. -/
def Obligations.RandomAndResult : Prop :=
  ∀ (x : Reg) (kk : Byte) (s : State),
    (∃ t, exec (.rnd x kk) s = .next t ∧ t.getV x = Config.randomByte s.draws &&& kk ∧
      (∀ b, kk.getLsbD b = false → (t.getV x).getLsbD b = false) ∧ t.draws = s.draws + 1 ∧ t.pc = s.pc ∧
      t.report = some (.ok .none) ∧ Frame { regs := [x], draws := true } s t) ∧
    (∀ v : Byte, (∀ b, kk.getLsbD b = false → v.getLsbD b = false) →
      ∃ r t, randomAnd r x kk s = .next t ∧ t.getV x = v)

/-! ### Index register and memory (43_index_memory.md) -/

/-- R130. `LD I, nnn`: I is nnn zero-extended, so bits 15:12 are clear whatever was there. -/
def Obligations.SetIndexResult : Prop :=
  ∀ (nnn : Imm12) (s : State),
    ∃ t, exec (.ldI nnn) s = .next t ∧ t.I.toNat = nnn.toNat ∧ t.pc = s.pc ∧ t.report = some (.ok .none) ∧
      Frame { index := true } s t

/-- R131, R132. `ADD I, Vx` modulo 65536 with no flag and no error (decision D7); `LD F, Vx` five times the whole byte from
`FONT_BASE` 0 (decisions D2, D17). -/
def Obligations.IndexArithmeticResults : Prop :=
  ∀ (x : Reg) (s : State),
    (∃ t, exec (.addIVx x) s = .next t ∧ t.I.toNat = (s.I.toNat + (s.getV x).toNat) % 65536 ∧ t.pc = s.pc ∧
      t.report = some (.ok .none) ∧ Frame { index := true } s t) ∧
    (∃ t, exec (.ldFVx x) s = .next t ∧ t.I.toNat = 5 * (s.getV x).toNat ∧ t.pc = s.pc ∧
      t.report = some (.ok .none) ∧ Frame { index := true } s t)

/-- R133. `LD B, Vx` in range stores the hundreds, tens and ones of V[x] at I, I + 1, I + 2 and touches no other byte. The
premise is the memory invariant (see the two statements about it). -/
def Obligations.StoreBcdResult : Prop :=
  ∀ (x : Reg) (s : State), s.memoryCanonical → s.I.toNat + 2 ≤ 0xFFF →
    ∃ t, exec (.ldBVx x) s = .next t ∧
      (t.readByte s.I.toNat).toNat = (s.getV x).toNat / 100 ∧
      (t.readByte (s.I.toNat + 1)).toNat = (s.getV x).toNat / 10 % 10 ∧
      (t.readByte (s.I.toNat + 2)).toNat = (s.getV x).toNat % 10 ∧
      t.pc = s.pc ∧ t.report = some (.ok .none) ∧ Frame { bytes := span s.I 3 } s t

/-- R134. `LD [I], Vx` in range stores V0..Vx at I..I+x and touches no other byte; I is unchanged (decision D15). -/
def Obligations.RegisterDumpResult : Prop :=
  ∀ (x : Reg) (s : State), s.memoryCanonical → s.I.toNat + x.val ≤ 0xFFF →
    ∃ t, exec (.ldMemVx x) s = .next t ∧ (∀ r : Reg, r ≤ x → t.readByte (s.I.toNat + r.val) = s.getV r) ∧
      t.pc = s.pc ∧ t.report = some (.ok .none) ∧ Frame { bytes := span s.I (x.val + 1) } s t

/-- R135. `LD Vx, [I]` in range loads V0..Vx from I..I+x, leaves the registers above x, and changes nothing else; I is
unchanged (decision D15). -/
def Obligations.RegisterLoadResult : Prop :=
  ∀ (x : Reg) (s : State), s.I.toNat + x.val ≤ 0xFFF →
    ∃ t, exec (.ldVxMem x) s = .next t ∧ (∀ r : Reg, r ≤ x → t.getV r = s.readByte (s.I.toNat + r.val)) ∧
      t.pc = s.pc ∧ t.report = some (.ok .none) ∧ Frame { regs := (List.finRange 16).filter (· ≤ x) } s t

/-- R134, R135, R53. Registers dumped and later loaded back from the same I over unchanged memory have their old values,
whatever the registers held in between. -/
def Obligations.DumpThenLoadRestores : Prop :=
  ∀ (x : Reg) (s t u : State), s.memoryCanonical → s.I.toNat + x.val ≤ 0xFFF → exec (.ldMemVx x) s = .next t →
    u.mem = t.mem → u.I = t.I → ∃ v, exec (.ldVxMem x) u = .next v ∧ ∀ r : Reg, r ≤ x → v.getV r = s.getV r

/-- R55, R189. What a store writes over the next instruction is what the next fetch reads, with no fence between. -/
def Obligations.StoresAreSeenByTheNextFetch : Prop :=
  ∀ (x : Reg) (s t : State), s.memoryCanonical →
    (exec (.ldMemVx x) s = .next t → s.I.toNat + x.val ≤ 0xFFF → ∀ a b : Reg, a ≤ x → b ≤ x →
      s.pc.toNat = s.I.toNat + a.val → s.pc.toNat + 1 = s.I.toNat + b.val →
      t.fetchWord = some (s.getV a ++ s.getV b)) ∧
    (exec (.ldBVx x) s = .next t → s.I.toNat + 2 ≤ 0xFFF → s.pc = s.I →
      t.fetchWord = some (BitVec.ofNat 8 ((s.getV x).toNat / 100) ++ BitVec.ofNat 8 ((s.getV x).toNat / 10 % 10)))

/-! ### Display (44_display.md) -/

/-- R140, R85. `CLS` turns every pixel off, writes no flag, and returns the cleared display (decision D14). -/
def Obligations.ClearScreenResult : Prop :=
  ∀ s : State, ∃ t, exec .cls s = .next t ∧ (∀ px py, t.disp.pixel px py = false) ∧ t.pc = s.pc ∧
    t.report = some (.ok (.redraw t.disp)) ∧ Frame { disp := true } s t

/-- R141, R142, R143. `DRW Vx, Vy, n` in range inverts exactly the pixels under a lit sprite bit, wrapping both ways, and
leaves every other pixel (the pixel form is derived by the spec in R142). -/
def Obligations.DrawInvertsPixelsUnderTheSprite : Prop :=
  ∀ (x y : Reg) (n : Nat) (s : State), n ≤ 15 → (n = 0 ∨ s.I.toNat + n - 1 ≤ 0xFFF) →
    ∃ t, exec (.drw x y n) s = .next t ∧ ∀ (px : Fin 64) (py : Fin 32),
      (spriteLit s x y n px py → t.disp.pixel px py = !s.disp.pixel px py) ∧
      (¬ spriteLit s x y n px py → t.disp.pixel px py = s.disp.pixel px py)

/-- R144. After `DRW` in range VF is 1 exactly when a lit sprite bit met a lit pixel, and 0 otherwise. -/
def Obligations.DrawReportsCollision : Prop :=
  ∀ (x y : Reg) (n : Nat) (s : State), n ≤ 15 → (n = 0 ∨ s.I.toNat + n - 1 ≤ 0xFFF) →
    ∃ t, exec (.drw x y n) s = .next t ∧
      ((∃ px py, spriteLit s x y n px py ∧ s.disp.pixel px py = true) → t.getV VF = 1) ∧
      ((¬ ∃ px py, spriteLit s x y n px py ∧ s.disp.pixel px py = true) → t.getV VF = 0)

/-- R146. `DRW`, wherever it does not fault, returns `Redraw` with the display after the draw, also when no pixel changes
(n = 0, an all-zero sprite). -/
def Obligations.DrawReturnsTheDisplay : Prop :=
  ∀ (x y : Reg) (n : Nat) (s : State), (n = 0 ∨ s.I.toNat + n - 1 ≤ 0xFFF) →
    ∃ t, exec (.drw x y n) s = .next t ∧ t.report = some (.ok (.redraw t.disp))

/-- R141, R145, R146. `DRW` in range writes nothing but VF and the display, and returns the display as it left it; with
n = 0 the display is unchanged and VF is 0 (decision D13). -/
def Obligations.DrawFrame : Prop :=
  ∀ (x y : Reg) (n : Nat) (s : State), (n = 0 ∨ s.I.toNat + n - 1 ≤ 0xFFF) →
    ∃ t, exec (.drw x y n) s = .next t ∧ t.pc = s.pc ∧ t.report = some (.ok (.redraw t.disp)) ∧
      Frame { regs := [VF], disp := true } s t ∧ (n = 0 → t.disp = s.disp ∧ t.getV VF = 0)

/-- R143. The same draw twice, with coordinates in registers that the first draw does not write, restores the display, and
the second collides exactly when a lit sprite bit fell on a dark pixel the first time. -/
def Obligations.DrawTwiceRestoresTheDisplay : Prop :=
  ∀ (x y : Reg) (n : Nat) (s t u : State), n ≤ 15 → (n = 0 ∨ s.I.toNat + n - 1 ≤ 0xFFF) → x ≠ VF → y ≠ VF →
    exec (.drw x y n) s = .next t → exec (.drw x y n) t = .next u →
    u.disp = s.disp ∧ (u.getV VF = 1 ↔ ∃ px py, spriteLit s x y n px py ∧ s.disp.pixel px py = false)

/-! ### Keypad, timers and the wait (45_keypad_timer.md) -/

/-- R150, R151, R156. `SKP` and `SKNP` with a key index at most 0x0F skip on that key's bit and change nothing else; above
0x0F they raise `KeyOutOfRange` (R169, decision D16), which leaves the state and the record of R162 and R163 (decisions D10,
D33; the record's address and word are log entry 4). -/
def Obligations.KeySkipResults : Prop :=
  ∀ (x : Reg) (s : State),
    ((s.getV x).toNat ≤ 0x0F →
      (∃ t, exec (.skp x) s = .next t ∧
        t.pc = (if s.keypad.getLsbD (s.getV x).toNat then s.pc + 2 else s.pc) ∧
        t.report = some (.ok .none) ∧ Frame {} s t) ∧
      (∃ t, exec (.sknp x) s = .next t ∧
        t.pc = (if s.keypad.getLsbD (s.getV x).toNat then s.pc else s.pc + 2) ∧
        t.report = some (.ok .none) ∧ Frame {} s t)) ∧
    ((s.getV x).toNat > 0x0F → ∀ i : Instr, i = .skp x ∨ i = .sknp x →
      exec i s = .next { s with
        run := .faulted ⟨.keyOutOfRange (s.getV x), s.pc - 2, some (encode i)⟩
        report := some (.err (.keyOutOfRange (s.getV x))) })

/-- R152, R153, R154. The three timer moves (which is which is the spec's decision D26). -/
def Obligations.TimerMoveResults : Prop :=
  ∀ (x : Reg) (s : State),
    (∃ t, exec (.ldVxDT x) s = .next t ∧ t.getV x = s.DT ∧ t.pc = s.pc ∧ t.report = some (.ok .none) ∧
      Frame { regs := [x] } s t) ∧
    (∃ t, exec (.ldDTVx x) s = .next t ∧ t.DT = s.getV x ∧ t.pc = s.pc ∧ t.report = some (.ok .none) ∧
      Frame { delay := true } s t) ∧
    (∃ t, exec (.ldSTVx x) s = .next t ∧ t.ST = s.getV x ∧ t.pc = s.pc ∧ t.report = some (.ok .none) ∧
      Frame { sound := true } s t)

/-- R155, R83, R87. `LD Vx, K` waits: it writes only the run state, pc stays after the instruction, the effect is
`AwaitKey`; a step then changes nothing; the key delivered goes to V[x] and the machine runs again, from the same pc (decisions D18, D19). -/
def Obligations.WaitForKeyResult : Prop :=
  ∀ (x : Reg) (s : State), s.issued = [] →
    ∃ t, exec (.ldVxK x) s = .next t ∧ t.run = .awaitingKey x ∧ t.pc = s.pc ∧ t.report = some (.ok .awaitKey) ∧
      Frame { run := true } s t ∧ step t = .next t ∧
      ∀ v : Byte, (t.deliverKey v).getV x = v ∧ (t.deliverKey v).run = .running ∧ (t.deliverKey v).pc = s.pc ∧
        (t.deliverKey v).report = t.report ∧ Frame { regs := [x], run := true } t (t.deliverKey v)

/-- R172, R86, R87. The three host operations in every run state: the timers count down to 0 and stop there, the mask is
written, a key is taken only while awaited; in Faulted none has an effect (decisions D10, D19, D20, D27). -/
def Obligations.HostOperationResults : Prop :=
  ∀ (s : State) (m : Word) (v : Byte),
    (s.run.isFaulted = false →
      (s.decrementTimers.DT.toNat = s.DT.toNat - 1 ∧ s.decrementTimers.ST.toNat = s.ST.toNat - 1 ∧
        s.decrementTimers.pc = s.pc ∧ s.decrementTimers.report = s.report ∧
        Frame { delay := true, sound := true } s s.decrementTimers) ∧
      s.setKeypad m = { s with keypad := m }) ∧
    (∀ r, s.run = .awaitingKey r → s.deliverKey v = { s.setV r v with run := .running }) ∧
    (s.run = .running → s.deliverKey v = s) ∧
    (s.run.isFaulted = true → s.decrementTimers = s ∧ s.setKeypad m = s ∧ s.deliverKey v = s)

/-! ### Reset and loading (70_reset_and_hazards.md) -/

/-- R181. `new` accepts every image of at most 3584 bytes, whole and verbatim, with what lies below it (the font table)
intact, and rejects every longer one with its length. -/
def Obligations.NewChecksTheSize : Prop :=
  ∀ p : List Byte,
    (p.length ≤ 3584 → ∃ s, newBlock p = .ok s ∧
      (∀ k (h : k < p.length), s.readByte (0x200 + k) = p[k]) ∧
      ∀ a < 0x200, s.readByte a = State.reset.readByte a) ∧
    (p.length > 3584 → newBlock p = .error (.imageTooLarge p.length))

/-- R180, R34, R35, R42. The state `new` leaves: every byte of memory, every register, the display, the run state (the zeros
of R35 are the spec's decision D4, the glyph bytes of R42 its D3, their base D2); and the default `SHIFT_SOURCE` of R6. The
report, the draw counter and the queue are the model's own, and so is that State holds the configuration (log entries 1, 5,
2, 30). -/
def Obligations.NewInitialisesEverything : Prop :=
  ∀ (p : List Byte) (s : State), newBlock p = .ok s →
    (∀ a < 4096, s.readByte a =
      if 0x200 ≤ a ∧ a < 0x200 + p.length then p.getD (a - 0x200) 0 else font.getD a 0) ∧
    font.length = 80 ∧
    font =
      [[0xF0, 0x90, 0x90, 0x90, 0xF0], [0x20, 0x60, 0x20, 0x20, 0x70], [0xF0, 0x10, 0xF0, 0x80, 0xF0],
       [0xF0, 0x10, 0xF0, 0x10, 0xF0], [0x90, 0x90, 0xF0, 0x10, 0x10], [0xF0, 0x80, 0xF0, 0x10, 0xF0],
       [0xF0, 0x80, 0xF0, 0x90, 0xF0], [0xF0, 0x10, 0x20, 0x40, 0x40], [0xF0, 0x90, 0xF0, 0x90, 0xF0],
       [0xF0, 0x90, 0xF0, 0x10, 0xF0], [0xF0, 0x90, 0xF0, 0x90, 0x90], [0xE0, 0x90, 0xE0, 0x90, 0xE0],
       [0xF0, 0x80, 0x80, 0x80, 0xF0], [0xE0, 0x90, 0x90, 0x90, 0xE0], [0xF0, 0x80, 0xF0, 0x80, 0xF0],
       [0xF0, 0x80, 0xF0, 0x80, 0x80]].flatten ∧
    (∀ r, s.getV r = 0) ∧ s.I = 0 ∧ s.pc = 0x200 ∧ s.SP = 0 ∧ (∀ j : Fin 16, s.stack[j] = 0) ∧
    s.DT = 0 ∧ s.ST = 0 ∧ s.keypad = 0 ∧ (∀ px py, s.disp.pixel px py = false) ∧ s.run = .running ∧
    s.memoryCanonical ∧ s.shiftSource = .vx

/-- R184, R182, R183, R181. `new` taken by a machine, whatever state it is in: the fresh block of the image and nothing of the
old one, or no engine. The step takes it as it takes any operation. The queue, the count of draws and the configuration are no
part of the block and go on (log entries 2, 5, 9, 30); `none` is a file the host could not read (log entry 10). -/
def Obligations.NewReplacesTheBlock : Prop :=
  ∀ (s : State) (p : List Byte),
    (p.length ≤ 3584 → ∃ b, newBlock p = .ok b ∧
      applyOp (.new (some p)) s =
        .next { b with draws := s.draws, issued := s.issued, shiftSource := s.shiftSource }) ∧
    (p.length > 3584 → applyOp (.new (some p)) s = .fault (.loadFailed (.imageTooLarge p.length))) ∧
    applyOp (.new none) s = .fault (.loadFailed .io) ∧
    (∀ (u : State) (file : Option (List Byte)),
      u.draws = s.draws → u.issued = s.issued → u.shiftSource = s.shiftSource →
      applyOp (.new file) u = applyOp (.new file) s) ∧
    ∀ file rest, s.issued = .new file :: rest → step s = applyOp (.new file) { s with issued := rest }

/-- R180, R185. Reset is `new` of an empty image; its first step, and that of any image of one byte b, fetches the word b
followed by zero, which for b = 0 faults `InvalidOpcode(0x0000)` with pc = 0x202 and the record of R162 (decisions D10, D33). -/
def Obligations.ResetRunsAnEmptyImage : Prop :=
  newBlock [] = .ok State.reset ∧ State.reset.fetchWord = some 0 ∧
  (∀ (b : Byte) (s : State), newBlock [b] = .ok s → s.fetchWord = some (b ++ (0 : Byte))) ∧
  step State.reset = .next { State.reset with
    pc := 0x202, run := .faulted ⟨.invalidOpcode 0, 0x200, some 0⟩, report := some (.err (.invalidOpcode 0)) }

/-! ### Invariants and rules of the whole machine -/

/-- Reset meets the invariants (R34, R35). -/
def Obligations.ResetMeetsTheInvariants : Prop :=
  State.reset.memoryCanonical ∧ State.reset.pcBounded ∧ State.reset.reportAgrees

/-- Every step, of an instruction or of a host operation, keeps memory in its canonical form, inside 0x000..0xFFF
(R40, R45, R51; the form is the model's, log entry 7). -/
def Obligations.StepKeepsMemoryCanonical : Prop :=
  ∀ s t : State, s.memoryCanonical → step s = .next t → t.memoryCanonical

/-- What the last step returned agrees with the run state: every step keeps it that a machine that waits last returned
`AwaitKey` (R83, R155, R88: so the condition of R89 on `deliver_key`, "only while the last effect was `AwaitKey` and no
`deliver_key` has followed", is the run state's) and that a faulted one last returned its error (R163). That State holds what
a step returned is the model's choice (log entry 1). -/
def Obligations.StepKeepsReportAgreeing : Prop :=
  ∀ s t : State, s.reportAgrees → step s = .next t → t.reportAgrees

/-- R24. "The rules never carry pc past 0x10FE": every step keeps pc at most 0x10FE, and every return address at most
0x1000. -/
def Obligations.StepKeepsPcBounded : Prop :=
  ∀ s t : State, s.pcBounded → step s = .next t → t.pcBounded

/-- Two canonical memories that read the same over 0x000..0xFFF are the same memory (R40; log entry 7). -/
def Obligations.CanonicalMemoryIsItsReads : Prop :=
  ∀ m m' : Memory, m.wf = true → m'.wf = true → (∀ a < 4096, m.read a = m'.read a) → m = m'

/-- R21-R32, R51, R6. Which instructions write each element of the state: in each line, every instruction not named leaves the
element as it was. The run state is written by `LD Vx, K` and by an instruction whose own check fails (decision D10), by no
other. -/
def Obligations.WritersOfEachElement : Prop :=
  ∀ (i : Instr) (s t : State), exec i s = .next t →
    (∀ r, Instr.writesReg i r = false → t.getV r = s.getV r) ∧
    (Instr.writesPc i = false → t.pc = s.pc) ∧
    ((∀ x, i ≠ .ldBVx x ∧ i ≠ .ldMemVx x) → t.mem = s.mem) ∧
    ((∀ nnn x, i ≠ .ldI nnn ∧ i ≠ .addIVx x ∧ i ≠ .ldFVx x) → t.I = s.I) ∧
    ((∀ nnn, i ≠ .call nnn) → t.stack = s.stack) ∧
    ((∀ nnn, i ≠ .call nnn ∧ i ≠ .ret) → t.SP = s.SP) ∧
    ((∀ x y n, i ≠ .cls ∧ i ≠ .drw x y n) → t.disp = s.disp) ∧
    ((∀ x, i ≠ .ldDTVx x) → t.DT = s.DT) ∧
    ((∀ x, i ≠ .ldSTVx x) → t.ST = s.ST) ∧
    ((∀ x kk, i ≠ .rnd x kk) → t.draws = s.draws) ∧
    ((∀ x, i ≠ .ldVxK x) → ownError i s = none → t.run = s.run) ∧
    t.keypad = s.keypad ∧ t.issued = s.issued ∧ t.shiftSource = s.shiftSource

/-- R85. The effect of every instruction that does not fault: `Redraw` with the display it leaves for `CLS` and `DRW`,
`AwaitKey` for `LD Vx, K`, `None` for every other (decision D14 for `CLS`). -/
def Obligations.EffectOfEachInstruction : Prop :=
  ∀ (i : Instr) (s t : State), s.run = .running → exec i s = .next t → (∀ f, t.run ≠ .faulted f) →
    ((∃ x y n, i = .cls ∨ i = .drw x y n) → t.report = some (.ok (.redraw t.disp))) ∧
    ((∃ x, i = .ldVxK x) → t.report = some (.ok .awaitKey)) ∧
    ((∀ x y n, i ≠ .cls ∧ i ≠ .drw x y n ∧ i ≠ .ldVxK x) → t.report = some (.ok .none))

/-- R30. No program observes ST: a step from two states that differ in ST alone gives two states that differ in ST at most,
and stops in neither or both. -/
def Obligations.SoundTimerIsUnobservable : Prop :=
  ∀ (s t : State) (a : Byte), step s = .next t →
    ∃ t', step { s with ST := a } = .next t' ∧ { t' with ST := t.ST } = t

/-- R31. The keypad mask is read by `SKP` and `SKNP` alone: any other instruction does the same whatever keys are held. -/
def Obligations.OnlyKeySkipsReadTheKeypad : Prop :=
  ∀ (i : Instr) (s t : State) (m : Word), (∀ x, i ≠ .skp x ∧ i ≠ .sknp x) → exec i s = .next t →
    exec i { s with keypad := m } = .next { t with keypad := m }
end

