-- ==== Sys2Proof/Laws/Decode.lean ====
section
/-! SUPPORT. The fields of a packed word are the fields packed, and a word is the packing of its fields (30_encoding.md R61). -/

namespace Sys2Proof

/-! ### Packed words and fields as numbers -/

theorem toNat_append_eq {m n : Nat} (a : BitVec m) (b : BitVec n) :
    (a ++ b).toNat = a.toNat * 2 ^ n + b.toNat := by
  rw [BitVec.toNat_append, ← Nat.shiftLeft_add_eq_or_of_lt b.isLt, Nat.shiftLeft_eq]

theorem toNat_packXYN (a x y n : Nibble) :
    (packXYN a x y n).toNat = a.toNat * 4096 + x.toNat * 256 + y.toNat * 16 + n.toNat := by
  simp only [packXYN, toNat_append_eq]
  omega

theorem toNat_packXKK (a x : Nibble) (kk : Byte) :
    (packXKK a x kk).toNat = a.toNat * 4096 + x.toNat * 256 + kk.toNat := by
  simp only [packXKK, toNat_append_eq]
  omega

theorem toNat_packNNN (a : Nibble) (nnn : Imm12) : (packNNN a nnn).toNat = a.toNat * 4096 + nnn.toNat := by
  simp only [packNNN, toNat_append_eq]
  omega

theorem toNat_fieldN0 (w : Word) : (fieldN0 w).toNat = w.toNat / 4096 := by
  have := w.isLt
  simp only [fieldN0, BitVec.extractLsb'_toNat, Nat.shiftRight_eq_div_pow]
  omega

theorem toNat_fieldX (w : Word) : (fieldX w).toNat = w.toNat / 256 % 16 := by
  simp only [fieldX, BitVec.extractLsb'_toNat, Nat.shiftRight_eq_div_pow]

theorem toNat_fieldY (w : Word) : (fieldY w).toNat = w.toNat / 16 % 16 := by
  simp only [fieldY, BitVec.extractLsb'_toNat, Nat.shiftRight_eq_div_pow]

theorem toNat_fieldN (w : Word) : (fieldN w).toNat = w.toNat % 16 := by
  simp only [fieldN, BitVec.extractLsb'_toNat, Nat.shiftRight_eq_div_pow]
  omega

theorem toNat_fieldKK (w : Word) : (fieldKK w).toNat = w.toNat % 256 := by
  simp only [fieldKK, BitVec.extractLsb'_toNat, Nat.shiftRight_eq_div_pow]
  omega

theorem toNat_fieldNNN (w : Word) : (fieldNNN w).toNat = w.toNat % 4096 := by
  simp only [fieldNNN, BitVec.extractLsb'_toNat, Nat.shiftRight_eq_div_pow]
  omega

/-! ### The fields of a packed word -/

@[simp] theorem fieldN0_packXYN (a x y n : Nibble) : fieldN0 (packXYN a x y n) = a := by
  apply BitVec.eq_of_toNat_eq; rw [toNat_fieldN0, toNat_packXYN]; omega

@[simp] theorem fieldX_packXYN (a x y n : Nibble) : fieldX (packXYN a x y n) = x := by
  apply BitVec.eq_of_toNat_eq; rw [toNat_fieldX, toNat_packXYN]; omega

@[simp] theorem fieldY_packXYN (a x y n : Nibble) : fieldY (packXYN a x y n) = y := by
  apply BitVec.eq_of_toNat_eq; rw [toNat_fieldY, toNat_packXYN]; omega

@[simp] theorem fieldN_packXYN (a x y n : Nibble) : fieldN (packXYN a x y n) = n := by
  apply BitVec.eq_of_toNat_eq; rw [toNat_fieldN, toNat_packXYN]; omega

@[simp] theorem fieldN0_packXKK (a x : Nibble) (kk : Byte) : fieldN0 (packXKK a x kk) = a := by
  apply BitVec.eq_of_toNat_eq; rw [toNat_fieldN0, toNat_packXKK]; omega

@[simp] theorem fieldX_packXKK (a x : Nibble) (kk : Byte) : fieldX (packXKK a x kk) = x := by
  apply BitVec.eq_of_toNat_eq; rw [toNat_fieldX, toNat_packXKK]; omega

@[simp] theorem fieldKK_packXKK (a x : Nibble) (kk : Byte) : fieldKK (packXKK a x kk) = kk := by
  apply BitVec.eq_of_toNat_eq; rw [toNat_fieldKK, toNat_packXKK]; omega

@[simp] theorem fieldN0_packNNN (a : Nibble) (nnn : Imm12) : fieldN0 (packNNN a nnn) = a := by
  apply BitVec.eq_of_toNat_eq; rw [toNat_fieldN0, toNat_packNNN]; omega

@[simp] theorem fieldNNN_packNNN (a : Nibble) (nnn : Imm12) : fieldNNN (packNNN a nnn) = nnn := by
  apply BitVec.eq_of_toNat_eq; rw [toNat_fieldNNN, toNat_packNNN]; omega

/-! ### A word is the packing of its fields -/

theorem packXYN_fields (w : Word) : packXYN (fieldN0 w) (fieldX w) (fieldY w) (fieldN w) = w := by
  apply BitVec.eq_of_toNat_eq
  rw [toNat_packXYN, toNat_fieldN0, toNat_fieldX, toNat_fieldY, toNat_fieldN]
  omega

theorem packXKK_fields (w : Word) : packXKK (fieldN0 w) (fieldX w) (fieldKK w) = w := by
  apply BitVec.eq_of_toNat_eq
  rw [toNat_packXKK, toNat_fieldN0, toNat_fieldX, toNat_fieldKK]
  omega

theorem packNNN_fields (w : Word) : packNNN (fieldN0 w) (fieldNNN w) = w := by
  apply BitVec.eq_of_toNat_eq
  rw [toNat_packNNN, toNat_fieldN0, toNat_fieldNNN]
  omega

/-! ### Registers and nibbles, bytes and words -/

@[simp] theorem regOf_regBits (r : Reg) : regOf (regBits r) = r := by
  apply Fin.ext
  simp only [regOf, regBits, BitVec.toNat_ofNat]
  omega

@[simp] theorem regBits_regOf (b : Nibble) : regBits (regOf b) = b := by
  apply BitVec.eq_of_toNat_eq
  simp only [regOf, regBits, BitVec.toNat_ofNat]
  omega

@[simp] theorem wordOfBytes_bytes (w : Word) : wordOfBytes (highByte w) (lowByte w) = w := by
  apply BitVec.eq_of_toNat_eq
  simp only [wordOfBytes, highByte, lowByte, toNat_append_eq, BitVec.extractLsb'_toNat, Nat.shiftRight_eq_div_pow]
  omega

@[simp] theorem highByte_wordOfBytes (hi lo : Byte) : highByte (wordOfBytes hi lo) = hi := by
  apply BitVec.eq_of_toNat_eq
  simp only [wordOfBytes, highByte, toNat_append_eq, BitVec.extractLsb'_toNat, Nat.shiftRight_eq_div_pow]
  omega

@[simp] theorem lowByte_wordOfBytes (hi lo : Byte) : lowByte (wordOfBytes hi lo) = lo := by
  apply BitVec.eq_of_toNat_eq
  simp only [wordOfBytes, lowByte, toNat_append_eq, BitVec.extractLsb'_toNat, Nat.shiftRight_eq_div_pow]
  omega

/-- Decoding the two bytes of a word is decoding the word. -/
theorem decode_bytes (w : Word) (rest : List Byte) :
    decode (highByte w :: lowByte w :: rest) = (decodeWord w).map fun i => (i, rest) := by
  simp only [decode, wordOfBytes_bytes]
  cases decodeWord w <;> rfl

/-! ### Bits of packed words, and the masks of the opcode map -/

theorem getLsbD_packNNN (a : Nibble) (nnn : Imm12) (i : Nat) :
    (packNNN a nnn).getLsbD i = if i < 12 then nnn.getLsbD i else a.getLsbD (i - 12) := BitVec.getLsbD_append

theorem getLsbD_packXKK (a x : Nibble) (kk : Byte) (i : Nat) :
    (packXKK a x kk).getLsbD i =
      if i < 8 then kk.getLsbD i else if i - 8 < 4 then x.getLsbD (i - 8) else a.getLsbD (i - 8 - 4) := by
  have h := BitVec.getLsbD_append (x := a ++ x) (y := kk) (i := i)
  simp only [BitVec.getLsbD_append (x := a) (y := x)] at h
  exact h

theorem getLsbD_packXYN (a x y n : Nibble) (i : Nat) :
    (packXYN a x y n).getLsbD i =
      if i < 4 then n.getLsbD i else if i - 4 < 4 then y.getLsbD (i - 4)
      else if i - 4 - 4 < 4 then x.getLsbD (i - 4 - 4) else a.getLsbD (i - 4 - 4 - 4) := by
  have h := BitVec.getLsbD_append (x := a ++ x ++ y) (y := n) (i := i)
  simp only [BitVec.getLsbD_append (x := a ++ x) (y := y), BitVec.getLsbD_append (x := a) (y := x)] at h
  exact h

/-- Rows of mask 0xF000 test the first nibble. -/
theorem and_F000 (w : Word) : w &&& 0xF000 = packNNN (fieldN0 w) 0 := by
  apply BitVec.eq_of_getLsbD_eq
  intro i hi
  rw [getLsbD_packNNN]
  interval_cases i <;> simp [fieldN0]

/-- Rows of mask 0xF00F test the first and the last nibble. -/
theorem and_F00F (w : Word) : w &&& 0xF00F = packXYN (fieldN0 w) 0 0 (fieldN w) := by
  apply BitVec.eq_of_getLsbD_eq
  intro i hi
  rw [getLsbD_packXYN]
  interval_cases i <;> simp [fieldN0, fieldN]

/-- Rows of mask 0xF0FF test the first nibble and the low byte. -/
theorem and_F0FF (w : Word) : w &&& 0xF0FF = packXKK (fieldN0 w) 0 (fieldKK w) := by
  apply BitVec.eq_of_getLsbD_eq
  intro i hi
  rw [getLsbD_packXKK]
  interval_cases i <;> simp [fieldN0, fieldKK]

theorem and_FFFF (w : Word) : w &&& 0xFFFF = w := BitVec.and_allOnes

end Sys2Proof
end

