-- ==== Sys2Proof/Laws/Memory.lean ====
section
/-! SUPPORT. The laws of memory: every operation keeps the canonical form; a read after a write gives the value written at
the address written and the old value everywhere else. -/

namespace Sys2Proof.Machine

theorem Memory.wfFrom_cons {lo b : Nat} {u : Byte} {m : Memory} :
    Memory.wfFrom lo ((b, u) :: m) = true ↔
      lo ≤ b ∧ b < Config.memSize ∧ u ≠ blankByte b ∧ Memory.wfFrom (b + 1) m = true := by
  simp [Memory.wfFrom, and_assoc]

/-- A canonical memory from a higher address upward is one from a lower address upward. -/
theorem Memory.wfFrom_mono {lo hi : Nat} (hle : lo ≤ hi) {m : Memory} (h : Memory.wfFrom hi m = true) :
    Memory.wfFrom lo m = true := by
  cases m with
  | nil => rfl
  | cons c m =>
    obtain ⟨b, u⟩ := c
    rw [Memory.wfFrom_cons] at h ⊢
    exact ⟨hle.trans h.1, h.2⟩

/-- Below the first address that a canonical memory can list, every address reads as unlisted. -/
theorem Memory.read_below {lo a : Nat} (ha : a < lo) {m : Memory} (h : Memory.wfFrom lo m = true) :
    Memory.read m a = blankByte a := by
  cases m with
  | nil => rfl
  | cons c m =>
    obtain ⟨b, u⟩ := c
    rw [Memory.wfFrom_cons] at h
    simp [Memory.read, lt_of_lt_of_le ha h.1]

theorem Memory.wfFrom_cell_append {lo a : Nat} {v : Byte} {m : Memory} (hlo : lo ≤ a) (ha : a < Config.memSize)
    (h : Memory.wfFrom (a + 1) m = true) : Memory.wfFrom lo (Memory.cell a v ++ m) = true := by
  unfold Memory.cell
  split
  · exact Memory.wfFrom_mono (by omega) h
  · rename_i hv
    exact Memory.wfFrom_cons.2 ⟨hlo, ha, hv, h⟩

theorem Memory.wfFrom_write {lo a : Nat} (v : Byte) {m : Memory} (hlo : lo ≤ a) (ha : a < Config.memSize)
    (h : Memory.wfFrom lo m = true) : Memory.wfFrom lo (m.write a v) = true := by
  induction m generalizing lo with
  | nil => simpa [Memory.write] using Memory.wfFrom_cell_append (v := v) (m := []) hlo ha rfl
  | cons c m ih =>
    obtain ⟨b, u⟩ := c
    obtain ⟨h1, h2, h3, h4⟩ := Memory.wfFrom_cons.1 h
    rw [Memory.write]
    split
    · exact Memory.wfFrom_cons.2 ⟨h1, h2, h3, ih (by omega) h4⟩
    split
    · exact Memory.wfFrom_cell_append hlo ha (Memory.wfFrom_cons.2 ⟨by omega, h2, h3, h4⟩)
    · have hab : a = b := by omega
      exact Memory.wfFrom_cell_append hlo ha (hab ▸ h4)

/-- Writing a byte inside the address space keeps the canonical form. -/
theorem Memory.wf_write {m : Memory} {a : Nat} (v : Byte) (ha : a < Config.memSize) (h : m.wf = true) :
    (m.write a v).wf = true :=
  Memory.wfFrom_write v (Nat.zero_le a) ha h

theorem Memory.read_cell_append_same {a : Nat} {v : Byte} {m : Memory} (h : Memory.wfFrom (a + 1) m = true) :
    Memory.read (Memory.cell a v ++ m) a = v := by
  unfold Memory.cell
  split
  · rename_i hv
    rw [hv]
    exact Memory.read_below (Nat.lt_succ_self a) h
  · simp [Memory.read]

theorem Memory.read_cell_append_ne {a x : Nat} {v : Byte} {m : Memory} (hx : x ≠ a)
    (h : Memory.wfFrom (a + 1) m = true) : Memory.read (Memory.cell a v ++ m) x = Memory.read m x := by
  unfold Memory.cell
  split
  · rfl
  · simp only [List.cons_append, List.nil_append, Memory.read, hx, if_false]
    split
    · rename_i hlt
      exact (Memory.read_below (by omega) h).symm
    · rfl

theorem Memory.read_write_from {lo a : Nat} (v : Byte) (x : Nat) {m : Memory} (h : Memory.wfFrom lo m = true) :
    Memory.read (m.write a v) x = if x = a then v else Memory.read m x := by
  induction m generalizing lo with
  | nil =>
    have hw : Memory.write [] a v = Memory.cell a v ++ [] := by simp [Memory.write]
    rw [hw]
    split
    · rename_i hx
      exact hx ▸ Memory.read_cell_append_same rfl
    · rename_i hx
      exact Memory.read_cell_append_ne hx rfl
  | cons c m ih =>
    obtain ⟨b, u⟩ := c
    obtain ⟨h1, h2, h3, h4⟩ := Memory.wfFrom_cons.1 h
    rw [Memory.write]
    split
    · rename_i hba
      simp only [Memory.read, ih h4]
      split <;> split <;> first | rfl | omega | skip
      split <;> first | rfl | omega
    split
    · have hcons : Memory.wfFrom (a + 1) ((b, u) :: m) = true := Memory.wfFrom_cons.2 ⟨by omega, h2, h3, h4⟩
      split
      · rename_i hx
        subst hx
        exact Memory.read_cell_append_same hcons
      · rename_i hx
        exact Memory.read_cell_append_ne hx hcons
    · have hab : b = a := by omega
      subst hab
      split
      · rename_i hx
        subst hx
        exact Memory.read_cell_append_same h4
      · rename_i hx
        rw [Memory.read_cell_append_ne hx h4, Memory.read, if_neg hx]
        split
        · rename_i hlt
          exact Memory.read_below (by omega) h4
        · rfl

/-- A read after a write, in a canonical memory: the value written where it was written, the old value elsewhere. -/
theorem Memory.read_write {m : Memory} (h : m.wf = true) (a : Nat) (v : Byte) (x : Nat) :
    Memory.read (m.write a v) x = if x = a then v else Memory.read m x :=
  Memory.read_write_from v x h

/-- Writing bytes inside the address space keeps the canonical form. -/
theorem Memory.wf_writeBytes {m : Memory} {a : Nat} (vs : List Byte) (ha : a + vs.length ≤ Config.memSize)
    (h : m.wf = true) : (m.writeBytes a vs).wf = true := by
  induction vs generalizing m a with
  | nil => exact h
  | cons v vs ih =>
    have hlen : (v :: vs).length = vs.length + 1 := rfl
    exact ih (by omega) (Memory.wf_write v (by omega) h)

/-- A read after writing several bytes: the byte written where one was, the old value elsewhere. -/
theorem Memory.read_writeBytes {m : Memory} {a : Nat} (vs : List Byte) (ha : a + vs.length ≤ Config.memSize)
    (h : m.wf = true) (x : Nat) :
    Memory.read (m.writeBytes a vs) x =
      if a ≤ x ∧ x < a + vs.length then vs.getD (x - a) 0 else Memory.read m x := by
  induction vs generalizing m a with
  | nil =>
    rw [if_neg (by simp)]
    rfl
  | cons v vs ih =>
    have hlen : (v :: vs).length = vs.length + 1 := rfl
    rw [Memory.writeBytes, ih (by omega) (Memory.wf_write v (by omega) h), Memory.read_write h]
    rcases Nat.lt_trichotomy x a with hx | hx | hx
    · rw [if_neg (by omega), if_neg (by omega), if_neg (by omega)]
    · subst hx
      rw [if_neg (by omega), if_pos rfl, if_pos (by omega)]
      simp
    · have hsub : x - a = (x - (a + 1)) + 1 := by omega
      by_cases hin : x < a + (v :: vs).length
      · rw [if_pos (by omega), if_pos (by omega), hsub]
        simp
      · rw [if_neg (by omega), if_neg (by omega), if_neg (by omega)]

/-- Reset memory has the canonical form. -/
theorem State.reset_mem_wf : State.reset.mem.wf = true := rfl

/-- Storing bytes that the range check lets pass keeps the canonical form. -/
theorem State.wf_storeBytes (s : State) (addr : Word) (vs : List Byte) (ha : addr.toNat + vs.length ≤ 0x1000)
    (h : s.mem.wf = true) : (s.storeBytes addr vs).mem.wf = true :=
  Memory.wf_writeBytes vs ha h

/-- Reading a byte after storing bytes that the range check lets pass. -/
theorem State.readByte_storeBytes (s : State) (addr : Word) (vs : List Byte)
    (ha : addr.toNat + vs.length ≤ 0x1000) (h : s.mem.wf = true) (x : Nat) :
    (s.storeBytes addr vs).readByte x =
      if addr.toNat ≤ x ∧ x < addr.toNat + vs.length then vs.getD (x - addr.toNat) 0 else s.readByte x :=
  Memory.read_writeBytes vs ha h x

end Sys2Proof.Machine
end

