-- ==== Sys2Proof/Laws/State.lean ====
section
/-! SUPPORT. One lemma per field of State per update, true by definition, so that no later proof unfolds a record update. -/

namespace Sys2Proof.Machine

variable (s : State)

/-! ### setV -/

@[simp] theorem State.setV_mem (r : Reg) (v : Byte) : (s.setV r v).mem = s.mem := rfl
@[simp] theorem State.setV_V (r : Reg) (v : Byte) : (s.setV r v).V = s.V.set r v := rfl
@[simp] theorem State.setV_I (r : Reg) (v : Byte) : (s.setV r v).I = s.I := rfl
@[simp] theorem State.setV_pc (r : Reg) (v : Byte) : (s.setV r v).pc = s.pc := rfl
@[simp] theorem State.setV_stack (r : Reg) (v : Byte) : (s.setV r v).stack = s.stack := rfl
@[simp] theorem State.setV_SP (r : Reg) (v : Byte) : (s.setV r v).SP = s.SP := rfl
@[simp] theorem State.setV_disp (r : Reg) (v : Byte) : (s.setV r v).disp = s.disp := rfl
@[simp] theorem State.setV_DT (r : Reg) (v : Byte) : (s.setV r v).DT = s.DT := rfl
@[simp] theorem State.setV_ST (r : Reg) (v : Byte) : (s.setV r v).ST = s.ST := rfl
@[simp] theorem State.setV_keypad (r : Reg) (v : Byte) : (s.setV r v).keypad = s.keypad := rfl
@[simp] theorem State.setV_run (r : Reg) (v : Byte) : (s.setV r v).run = s.run := rfl
@[simp] theorem State.setV_report (r : Reg) (v : Byte) : (s.setV r v).report = s.report := rfl
@[simp] theorem State.setV_draws (r : Reg) (v : Byte) : (s.setV r v).draws = s.draws := rfl
@[simp] theorem State.setV_issued (r : Reg) (v : Byte) : (s.setV r v).issued = s.issued := rfl
@[simp] theorem State.setV_shiftSource (r : Reg) (v : Byte) : (s.setV r v).shiftSource = s.shiftSource := rfl

/-! ### storeBytes -/

@[simp] theorem State.storeBytes_mem (addr : Word) (vs : List Byte) : (s.storeBytes addr vs).mem = s.mem.writeBytes addr.toNat vs := rfl
@[simp] theorem State.storeBytes_V (addr : Word) (vs : List Byte) : (s.storeBytes addr vs).V = s.V := rfl
@[simp] theorem State.storeBytes_I (addr : Word) (vs : List Byte) : (s.storeBytes addr vs).I = s.I := rfl
@[simp] theorem State.storeBytes_pc (addr : Word) (vs : List Byte) : (s.storeBytes addr vs).pc = s.pc := rfl
@[simp] theorem State.storeBytes_stack (addr : Word) (vs : List Byte) : (s.storeBytes addr vs).stack = s.stack := rfl
@[simp] theorem State.storeBytes_SP (addr : Word) (vs : List Byte) : (s.storeBytes addr vs).SP = s.SP := rfl
@[simp] theorem State.storeBytes_disp (addr : Word) (vs : List Byte) : (s.storeBytes addr vs).disp = s.disp := rfl
@[simp] theorem State.storeBytes_DT (addr : Word) (vs : List Byte) : (s.storeBytes addr vs).DT = s.DT := rfl
@[simp] theorem State.storeBytes_ST (addr : Word) (vs : List Byte) : (s.storeBytes addr vs).ST = s.ST := rfl
@[simp] theorem State.storeBytes_keypad (addr : Word) (vs : List Byte) : (s.storeBytes addr vs).keypad = s.keypad := rfl
@[simp] theorem State.storeBytes_run (addr : Word) (vs : List Byte) : (s.storeBytes addr vs).run = s.run := rfl
@[simp] theorem State.storeBytes_report (addr : Word) (vs : List Byte) : (s.storeBytes addr vs).report = s.report := rfl
@[simp] theorem State.storeBytes_draws (addr : Word) (vs : List Byte) : (s.storeBytes addr vs).draws = s.draws := rfl
@[simp] theorem State.storeBytes_issued (addr : Word) (vs : List Byte) : (s.storeBytes addr vs).issued = s.issued := rfl
@[simp] theorem State.storeBytes_shiftSource (addr : Word) (vs : List Byte) : (s.storeBytes addr vs).shiftSource = s.shiftSource := rfl

/-! ### loadRegs -/

@[simp] theorem State.loadRegs_mem (addr : Word) (x : Reg) : (s.loadRegs addr x).mem = s.mem := rfl
@[simp] theorem State.loadRegs_I (addr : Word) (x : Reg) : (s.loadRegs addr x).I = s.I := rfl
@[simp] theorem State.loadRegs_pc (addr : Word) (x : Reg) : (s.loadRegs addr x).pc = s.pc := rfl
@[simp] theorem State.loadRegs_stack (addr : Word) (x : Reg) : (s.loadRegs addr x).stack = s.stack := rfl
@[simp] theorem State.loadRegs_SP (addr : Word) (x : Reg) : (s.loadRegs addr x).SP = s.SP := rfl
@[simp] theorem State.loadRegs_disp (addr : Word) (x : Reg) : (s.loadRegs addr x).disp = s.disp := rfl
@[simp] theorem State.loadRegs_DT (addr : Word) (x : Reg) : (s.loadRegs addr x).DT = s.DT := rfl
@[simp] theorem State.loadRegs_ST (addr : Word) (x : Reg) : (s.loadRegs addr x).ST = s.ST := rfl
@[simp] theorem State.loadRegs_keypad (addr : Word) (x : Reg) : (s.loadRegs addr x).keypad = s.keypad := rfl
@[simp] theorem State.loadRegs_run (addr : Word) (x : Reg) : (s.loadRegs addr x).run = s.run := rfl
@[simp] theorem State.loadRegs_report (addr : Word) (x : Reg) : (s.loadRegs addr x).report = s.report := rfl
@[simp] theorem State.loadRegs_draws (addr : Word) (x : Reg) : (s.loadRegs addr x).draws = s.draws := rfl
@[simp] theorem State.loadRegs_issued (addr : Word) (x : Reg) : (s.loadRegs addr x).issued = s.issued := rfl
@[simp] theorem State.loadRegs_shiftSource (addr : Word) (x : Reg) : (s.loadRegs addr x).shiftSource = s.shiftSource := rfl

/-! ### advance -/

@[simp] theorem State.advance_mem : (s.advance).mem = s.mem := rfl
@[simp] theorem State.advance_V : (s.advance).V = s.V := rfl
@[simp] theorem State.advance_I : (s.advance).I = s.I := rfl
@[simp] theorem State.advance_pc : (s.advance).pc = s.pc + 2 := rfl
@[simp] theorem State.advance_stack : (s.advance).stack = s.stack := rfl
@[simp] theorem State.advance_SP : (s.advance).SP = s.SP := rfl
@[simp] theorem State.advance_disp : (s.advance).disp = s.disp := rfl
@[simp] theorem State.advance_DT : (s.advance).DT = s.DT := rfl
@[simp] theorem State.advance_ST : (s.advance).ST = s.ST := rfl
@[simp] theorem State.advance_keypad : (s.advance).keypad = s.keypad := rfl
@[simp] theorem State.advance_run : (s.advance).run = s.run := rfl
@[simp] theorem State.advance_report : (s.advance).report = s.report := rfl
@[simp] theorem State.advance_draws : (s.advance).draws = s.draws := rfl
@[simp] theorem State.advance_issued : (s.advance).issued = s.issued := rfl
@[simp] theorem State.advance_shiftSource : (s.advance).shiftSource = s.shiftSource := rfl

/-! ### jump -/

@[simp] theorem State.jump_mem (target : Word) : (s.jump target).mem = s.mem := rfl
@[simp] theorem State.jump_V (target : Word) : (s.jump target).V = s.V := rfl
@[simp] theorem State.jump_I (target : Word) : (s.jump target).I = s.I := rfl
@[simp] theorem State.jump_pc (target : Word) : (s.jump target).pc = target := rfl
@[simp] theorem State.jump_stack (target : Word) : (s.jump target).stack = s.stack := rfl
@[simp] theorem State.jump_SP (target : Word) : (s.jump target).SP = s.SP := rfl
@[simp] theorem State.jump_disp (target : Word) : (s.jump target).disp = s.disp := rfl
@[simp] theorem State.jump_DT (target : Word) : (s.jump target).DT = s.DT := rfl
@[simp] theorem State.jump_ST (target : Word) : (s.jump target).ST = s.ST := rfl
@[simp] theorem State.jump_keypad (target : Word) : (s.jump target).keypad = s.keypad := rfl
@[simp] theorem State.jump_run (target : Word) : (s.jump target).run = s.run := rfl
@[simp] theorem State.jump_report (target : Word) : (s.jump target).report = s.report := rfl
@[simp] theorem State.jump_draws (target : Word) : (s.jump target).draws = s.draws := rfl
@[simp] theorem State.jump_issued (target : Word) : (s.jump target).issued = s.issued := rfl
@[simp] theorem State.jump_shiftSource (target : Word) : (s.jump target).shiftSource = s.shiftSource := rfl

/-! ### reply -/

@[simp] theorem State.reply_mem (e : Effect) : (s.reply e).mem = s.mem := rfl
@[simp] theorem State.reply_V (e : Effect) : (s.reply e).V = s.V := rfl
@[simp] theorem State.reply_I (e : Effect) : (s.reply e).I = s.I := rfl
@[simp] theorem State.reply_pc (e : Effect) : (s.reply e).pc = s.pc := rfl
@[simp] theorem State.reply_stack (e : Effect) : (s.reply e).stack = s.stack := rfl
@[simp] theorem State.reply_SP (e : Effect) : (s.reply e).SP = s.SP := rfl
@[simp] theorem State.reply_disp (e : Effect) : (s.reply e).disp = s.disp := rfl
@[simp] theorem State.reply_DT (e : Effect) : (s.reply e).DT = s.DT := rfl
@[simp] theorem State.reply_ST (e : Effect) : (s.reply e).ST = s.ST := rfl
@[simp] theorem State.reply_keypad (e : Effect) : (s.reply e).keypad = s.keypad := rfl
@[simp] theorem State.reply_run (e : Effect) : (s.reply e).run = s.run := rfl
@[simp] theorem State.reply_report (e : Effect) : (s.reply e).report = some (.ok e) := rfl
@[simp] theorem State.reply_draws (e : Effect) : (s.reply e).draws = s.draws := rfl
@[simp] theorem State.reply_issued (e : Effect) : (s.reply e).issued = s.issued := rfl
@[simp] theorem State.reply_shiftSource (e : Effect) : (s.reply e).shiftSource = s.shiftSource := rfl

/-! ### raise -/

@[simp] theorem State.raise_mem (e : ExecutionError) (fpc : Word) (op : Option Word) : (s.raise e fpc op).mem = s.mem := rfl
@[simp] theorem State.raise_V (e : ExecutionError) (fpc : Word) (op : Option Word) : (s.raise e fpc op).V = s.V := rfl
@[simp] theorem State.raise_I (e : ExecutionError) (fpc : Word) (op : Option Word) : (s.raise e fpc op).I = s.I := rfl
@[simp] theorem State.raise_pc (e : ExecutionError) (fpc : Word) (op : Option Word) : (s.raise e fpc op).pc = s.pc := rfl
@[simp] theorem State.raise_stack (e : ExecutionError) (fpc : Word) (op : Option Word) : (s.raise e fpc op).stack = s.stack := rfl
@[simp] theorem State.raise_SP (e : ExecutionError) (fpc : Word) (op : Option Word) : (s.raise e fpc op).SP = s.SP := rfl
@[simp] theorem State.raise_disp (e : ExecutionError) (fpc : Word) (op : Option Word) : (s.raise e fpc op).disp = s.disp := rfl
@[simp] theorem State.raise_DT (e : ExecutionError) (fpc : Word) (op : Option Word) : (s.raise e fpc op).DT = s.DT := rfl
@[simp] theorem State.raise_ST (e : ExecutionError) (fpc : Word) (op : Option Word) : (s.raise e fpc op).ST = s.ST := rfl
@[simp] theorem State.raise_keypad (e : ExecutionError) (fpc : Word) (op : Option Word) : (s.raise e fpc op).keypad = s.keypad := rfl
@[simp] theorem State.raise_run (e : ExecutionError) (fpc : Word) (op : Option Word) : (s.raise e fpc op).run = .faulted ⟨e, fpc, op⟩ := rfl
@[simp] theorem State.raise_report (e : ExecutionError) (fpc : Word) (op : Option Word) : (s.raise e fpc op).report = some (.err e) := rfl
@[simp] theorem State.raise_draws (e : ExecutionError) (fpc : Word) (op : Option Word) : (s.raise e fpc op).draws = s.draws := rfl
@[simp] theorem State.raise_issued (e : ExecutionError) (fpc : Word) (op : Option Word) : (s.raise e fpc op).issued = s.issued := rfl
@[simp] theorem State.raise_shiftSource (e : ExecutionError) (fpc : Word) (op : Option Word) : (s.raise e fpc op).shiftSource = s.shiftSource := rfl

/-! ### skipIf -/

@[simp] theorem State.skipIf_mem (c : Bool) : (s.skipIf c).mem = s.mem := by cases c <;> rfl
@[simp] theorem State.skipIf_V (c : Bool) : (s.skipIf c).V = s.V := by cases c <;> rfl
@[simp] theorem State.skipIf_I (c : Bool) : (s.skipIf c).I = s.I := by cases c <;> rfl
@[simp] theorem State.skipIf_pc (c : Bool) : (s.skipIf c).pc = if c then s.pc + 2 else s.pc := by cases c <;> rfl
@[simp] theorem State.skipIf_stack (c : Bool) : (s.skipIf c).stack = s.stack := by cases c <;> rfl
@[simp] theorem State.skipIf_SP (c : Bool) : (s.skipIf c).SP = s.SP := by cases c <;> rfl
@[simp] theorem State.skipIf_disp (c : Bool) : (s.skipIf c).disp = s.disp := by cases c <;> rfl
@[simp] theorem State.skipIf_DT (c : Bool) : (s.skipIf c).DT = s.DT := by cases c <;> rfl
@[simp] theorem State.skipIf_ST (c : Bool) : (s.skipIf c).ST = s.ST := by cases c <;> rfl
@[simp] theorem State.skipIf_keypad (c : Bool) : (s.skipIf c).keypad = s.keypad := by cases c <;> rfl
@[simp] theorem State.skipIf_run (c : Bool) : (s.skipIf c).run = s.run := by cases c <;> rfl
@[simp] theorem State.skipIf_report (c : Bool) : (s.skipIf c).report = s.report := by cases c <;> rfl
@[simp] theorem State.skipIf_draws (c : Bool) : (s.skipIf c).draws = s.draws := by cases c <;> rfl
@[simp] theorem State.skipIf_issued (c : Bool) : (s.skipIf c).issued = s.issued := by cases c <;> rfl
@[simp] theorem State.skipIf_shiftSource (c : Bool) : (s.skipIf c).shiftSource = s.shiftSource := by cases c <;> rfl

/-! ### Register and byte reads after an update -/

@[simp] theorem State.getV_setV_same (r : Reg) (v : Byte) : (s.setV r v).getV r = v := by
  simp [State.getV]

theorem State.getV_setV (r q : Reg) (v : Byte) : (s.setV r v).getV q = if q = r then v else s.getV q := by
  by_cases h : q = r
  · simp [h]
  · have hv : r.val ≠ q.val := fun e => h (Fin.ext e.symm)
    simp [State.getV, State.setV, h, Vector.getElem_set_ne _ _ hv]

@[simp] theorem State.getV_setV_ne (r q : Reg) (v : Byte) (h : q ≠ r) : (s.setV r v).getV q = s.getV q := by
  simp [State.getV_setV, h]

theorem State.getV_loadRegs (addr : Word) (x q : Reg) :
    (s.loadRegs addr x).getV q = if q ≤ x then s.readByte (addr.toNat + q.val) else s.getV q := by
  simp [State.getV, State.loadRegs]

/-- A state with the same registers reads the same. -/
theorem State.getV_congr (s t : State) (h : t.V = s.V) (r : Reg) : t.getV r = s.getV r := by
  simp [State.getV, h]

/-- A state with the same memory reads the same. -/
theorem State.readByte_congr (s t : State) (h : t.mem = s.mem) (a : Nat) : t.readByte a = s.readByte a := by
  simp [State.readByte, h]

@[simp] theorem State.readByte_setV (r : Reg) (v : Byte) (b : Nat) : (s.setV r v).readByte b = s.readByte b := rfl
@[simp] theorem State.getV_storeBytes (addr : Word) (vs : List Byte) (q : Reg) : (s.storeBytes addr vs).getV q = s.getV q := rfl
@[simp] theorem State.readByte_loadRegs (addr : Word) (x : Reg) (b : Nat) : (s.loadRegs addr x).readByte b = s.readByte b := rfl
@[simp] theorem State.getV_advance (q : Reg) : (s.advance).getV q = s.getV q := rfl
@[simp] theorem State.readByte_advance (b : Nat) : (s.advance).readByte b = s.readByte b := rfl
@[simp] theorem State.getV_jump (target : Word) (q : Reg) : (s.jump target).getV q = s.getV q := rfl
@[simp] theorem State.readByte_jump (target : Word) (b : Nat) : (s.jump target).readByte b = s.readByte b := rfl
@[simp] theorem State.getV_reply (e : Effect) (q : Reg) : (s.reply e).getV q = s.getV q := rfl
@[simp] theorem State.readByte_reply (e : Effect) (b : Nat) : (s.reply e).readByte b = s.readByte b := rfl
@[simp] theorem State.getV_raise (e : ExecutionError) (fpc : Word) (op : Option Word) (q : Reg) : (s.raise e fpc op).getV q = s.getV q := rfl
@[simp] theorem State.readByte_raise (e : ExecutionError) (fpc : Word) (op : Option Word) (b : Nat) : (s.raise e fpc op).readByte b = s.readByte b := rfl
@[simp] theorem State.getV_skipIf (c : Bool) (q : Reg) : (s.skipIf c).getV q = s.getV q := by cases c <;> rfl
@[simp] theorem State.readByte_skipIf (c : Bool) (b : Nat) : (s.skipIf c).readByte b = s.readByte b := by cases c <;> rfl

/-! ### The state after reset -/

@[simp] theorem State.reset_getV (r : Reg) : State.reset.getV r = 0 := by
  simp [State.getV, State.reset]

@[simp] theorem State.reset_readByte (a : Nat) : State.reset.readByte a = blankByte a := rfl

end Sys2Proof.Machine
end

