-- ==== Sys2Proof/Laws/Ops.lean ====
section
/-! SUPPORT. What each shared operation can do, said once: its answer in every case, with the state it leaves. -/

namespace Sys2Proof.Machine

variable (s : State)

/-! ### Ends of an instruction -/

@[simp] theorem done_eq : done s = .next (s.reply .none) := rfl

@[simp] theorem redraw_eq : redraw s = .next (s.reply (.redraw s.disp)) := rfl

theorem doneWithFlag_eq (x : Reg) (r f : Byte) :
    doneWithFlag x r f s = .next (((s.setV x r).setV VF f).reply .none) := rfl

/-- After a flag-setting instruction VF holds the flag, whatever the destination. -/
@[simp] theorem getV_VF_flagged (x : Reg) (r f : Byte) : ((s.setV x r).setV VF f).getV VF = f :=
  State.getV_setV_same _ _ _

/-- After a flag-setting instruction a destination other than VF holds the result. -/
theorem getV_dest_flagged (x : Reg) (r f : Byte) (h : x ≠ VF) : ((s.setV x r).setV VF f).getV x = r := by
  rw [State.getV_setV_ne _ _ _ _ h, State.getV_setV_same]

/-- A flag-setting instruction writes its destination and VF only. -/
theorem getV_other_flagged (x q : Reg) (r f : Byte) (hx : q ≠ x) (hf : q ≠ VF) :
    ((s.setV x r).setV VF f).getV q = s.getV q := by
  rw [State.getV_setV_ne _ _ _ _ hf, State.getV_setV_ne _ _ _ _ hx]

/-! ### Errors -/

theorem raiseIn_eq (i : Instr) (e : ExecutionError) :
    raiseIn i e s = .next (s.raise e (s.pc - 2) (some (encode i))) := rfl

theorem outOfRange_eq_true {addr : Word} {n : Nat} : outOfRange addr n = true ↔ 0 < n ∧ addr.toNat + n - 1 > 0xFFF := by
  simp [outOfRange]

theorem outOfRange_eq_false {addr : Word} {n : Nat} : outOfRange addr n = false ↔ n = 0 ∨ addr.toNat + n ≤ 0x1000 := by
  simp only [outOfRange, decide_eq_false_iff_not]
  omega

/-- Where the range check passes, the instruction is its body. -/
theorem checkRange_pass (i : Instr) {addr : Word} {n : Nat} (body : State → Answer)
    (h : outOfRange addr n = false) : checkRange i addr n s body = body s := by
  simp [checkRange, h]

/-- Where the range check fails, the instruction does nothing but fault. -/
theorem checkRange_fail (i : Instr) {addr : Word} {n : Nat} (body : State → Answer)
    (h : outOfRange addr n = true) : checkRange i addr n s body = raiseIn i (.addressOutOfRange addr) s := by
  simp [checkRange, h]

/-! ### Fetching -/

theorem fetchWord_eq_none_iff : s.fetchWord = none ↔ s.pc.toNat > 0xFFE := by
  have h : (outOfRange s.pc 2 = true) ↔ s.pc.toNat > 0xFFE := by rw [outOfRange_eq_true]; omega
  by_cases hp : s.pc.toNat > 0xFFE
  · simp [State.fetchWord, h.2 hp, hp]
  · simp [State.fetchWord, mt h.1 hp, hp]

theorem fetchWord_in_range (h : s.pc.toNat ≤ 0xFFE) :
    s.fetchWord = some (wordOfBytes (s.readByte s.pc.toNat) (s.readByte (s.pc.toNat + 1))) := by
  have hr : outOfRange s.pc 2 = false := outOfRange_eq_false.2 (Or.inr (by omega))
  simp [State.fetchWord, hr]

/-! ### The call stack -/

theorem callTo_room (i : Instr) (target : Word) (h : s.SP.val < 16) :
    callTo i target s =
      .next (({ s with stack := s.stack.set s.SP.val s.pc, SP := ⟨s.SP.val + 1, by omega⟩ }.jump target).reply .none) := by
  simp [callTo, h]

theorem callTo_full (i : Instr) (target : Word) (h : s.SP.val = 16) :
    callTo i target s = raiseIn i .stackOverflow s := by
  simp [callTo, h]

theorem returnFrom_some (i : Instr) (h : 0 < s.SP.val) :
    returnFrom i s =
      .next (({ s with SP := ⟨s.SP.val - 1, by omega⟩ }.jump (s.stack[s.SP.val - 1]'(by omega))).reply .none) := by
  simp only [returnFrom, dif_pos h, done_eq]

theorem returnFrom_empty (i : Instr) (h : s.SP.val = 0) : returnFrom i s = raiseIn i .stackUnderflow s := by
  simp [returnFrom, h]

/-! ### Keys, immediates, digits -/

theorem skipOnKey_legal (i : Instr) (x : Reg) (cond : Bool → Bool) (h : (s.getV x).toNat ≤ 0x0F) :
    skipOnKey i x cond s = .next ((s.skipIf (cond (s.keypad.getLsbD (s.getV x).toNat))).reply .none) := by
  simp [skipOnKey, keyHeld, Nat.not_lt.2 h]

theorem skipOnKey_illegal (i : Instr) (x : Reg) (cond : Bool → Bool) (h : (s.getV x).toNat > 0x0F) :
    skipOnKey i x cond s = raiseIn i (.keyOutOfRange (s.getV x)) s := by
  simp [skipOnKey, h]

@[simp] theorem toNat_zextImm (nnn : Imm12) : (zextImm nnn).toNat = nnn.toNat := by
  simp only [zextImm, BitVec.toNat_setWidth]
  omega

@[simp] theorem toNat_zextByte (b : Byte) : (zextByte b).toNat = b.toNat := by
  simp only [zextByte, BitVec.toNat_setWidth]
  omega

theorem toNat_glyphAddr (v : Byte) : (glyphAddr v).toNat = 5 * v.toNat := by
  simp only [glyphAddr, BitVec.toNat_ofNat, Config.fontBase, Config.glyphBytes]
  omega

@[simp] theorem length_bcdDigits (v : Byte) : (bcdDigits v).length = 3 := rfl

@[simp] theorem length_regsUpTo (x : Reg) : (s.regsUpTo x).length = x.val + 1 := by
  simp [State.regsUpTo]

/-- Byte k of the dump is V[k]. -/
theorem getD_regsUpTo (x r : Reg) (h : r ≤ x) : (s.regsUpTo x).getD r.val 0 = s.getV r := by
  have hr : r.val < x.val + 1 := Nat.lt_succ_of_le h
  simp [State.regsUpTo, State.getV, hr]

/-! ### Host operations -/

@[simp] theorem toNat_countDown (t : Byte) : (countDown t).toNat = t.toNat - 1 := by
  unfold countDown
  split
  · bv_omega
  · omega

/-- An image that fits is loaded whole. -/
theorem newBlock_ok (p : List Byte) (h : p.length ≤ Config.maxProgramLen) :
    newBlock p = .ok { State.reset with mem := Memory.writeBytes [] Config.programBase p } := by
  simp [newBlock, Nat.not_lt.2 h]

theorem newBlock_error (p : List Byte) (h : p.length > Config.maxProgramLen) :
    newBlock p = .error (.imageTooLarge p.length) := by
  simp [newBlock, h]

end Sys2Proof.Machine
end

