-- ==== Sys2Proof/Laws/Display.lean ====
section
/-! SUPPORT. The display, pixel by pixel: what one column byte XORed with a part does to each pixel, and what one sprite row
does (44_display.md R141, R142). -/

namespace Sys2Proof.Machine

theorem Display.getElem_xorByte (d : Display) (row r : Fin 32) (col c : Fin 8) (part : Byte) :
    (d.xorByte row col part)[r][c] = if r = row ∧ c = col then d[row][col] ^^^ part else d[r][c] := by
  by_cases hr : r = row
  · subst hr
    by_cases hc : c = col
    · subst hc
      simp [Display.xorByte]
    · have hv : col.val ≠ c.val := fun e => hc (Fin.ext e.symm)
      simp [Display.xorByte, hc, Vector.getElem_set_ne _ _ hv]
  · have hv : row.val ≠ r.val := fun e => hr (Fin.ext e.symm)
    simp [Display.xorByte, hr, Vector.getElem_set_ne _ _ hv]

/-- The column byte of a pixel. -/
def colOf (px : Fin 64) : Fin 8 := ⟨px.val / 8, by omega⟩

theorem Display.pixel_eq (d : Display) (px : Fin 64) (py : Fin 32) :
    d.pixel px py = d[py][colOf px].getLsbD (7 - px.val % 8) := rfl

/-- A column byte XORed with a part inverts its pixels under the part's lit bits and no other. -/
theorem Display.pixel_xorByte (d : Display) (row : Fin 32) (col : Fin 8) (part : Byte) (px : Fin 64) (py : Fin 32) :
    (d.xorByte row col part).pixel px py =
      (d.pixel px py ^^ (decide (py = row ∧ colOf px = col) && part.getLsbD (7 - px.val % 8))) := by
  rw [Display.pixel_eq, Display.pixel_eq, Display.getElem_xorByte]
  split
  · rename_i h
    rw [← h.1, ← h.2]
    simp
  · rename_i h
    simp [h]

@[simp] theorem Display.pixel_blank (px : Fin 64) (py : Fin 32) : Display.blank.pixel px py = false := by
  simp [Display.pixel, Display.blank]

/-- Two displays with the same pixels are the same display. -/
theorem Display.ext_pixel (d e : Display) (h : ∀ px py, d.pixel px py = e.pixel px py) : d = e := by
  apply Vector.ext
  intro r hr
  apply Vector.ext
  intro c hc
  apply BitVec.eq_of_getLsbD_eq
  intro b hb
  have hp := h ⟨8 * c + (7 - b), by omega⟩ ⟨r, hr⟩
  have hcol : (8 * c + (7 - b)) / 8 = c := by omega
  have hbit : 7 - (7 - b) % 8 = b := by omega
  simpa [Display.pixel, hcol, hbit] using hp

theorem Blit.part_disp (b : Blit) (row : Fin 32) (col : Fin 8) (part : Byte) :
    (b.part row col part).disp = b.disp.xorByte row col part := rfl

/-- Parts of two bytes have a common lit bit exactly when their AND is not zero. -/
theorem and_ne_zero_iff (a b : Byte) : ((a &&& b) != 0) = true ↔ ∃ k < 8, a.getLsbD k = true ∧ b.getLsbD k = true := by
  constructor
  · intro h
    by_contra hn
    push Not at hn
    have hz : a &&& b = 0 := by
      apply BitVec.eq_of_getLsbD_eq
      intro k hk
      have := hn k hk
      cases ha : a.getLsbD k <;> simp_all
    simp [hz] at h
  · rintro ⟨k, _, ha, hb⟩
    have hne : a &&& b ≠ 0 := by
      intro hz
      have := congrArg (fun v : Byte => v.getLsbD k) hz
      simp [ha, hb] at this
    simpa using hne

/-- The collision test of one part: some lit bit of the part lies on a lit pixel of its column byte (R144). -/
theorem Blit.part_hit (b : Blit) (row : Fin 32) (col : Fin 8) (part : Byte) :
    (b.part row col part).hit = true ↔
      b.hit = true ∨ ∃ px : Fin 64, colOf px = col ∧ part.getLsbD (7 - px.val % 8) = true ∧ b.disp.pixel px row = true := by
  simp only [Blit.part, Bool.or_eq_true, and_ne_zero_iff]
  constructor
  · rintro (h | ⟨k, hk, h1, h2⟩)
    · exact Or.inl h
    · refine Or.inr ⟨⟨8 * col.val + (7 - k), by omega⟩, Fin.ext (by simp [colOf]; omega), ?_, ?_⟩
      · have hbit : 7 - (7 - k) % 8 = k := by omega
        simpa [hbit] using h2
      · have hcol : (8 * col.val + (7 - k)) / 8 = col.val := by omega
        have hbit : 7 - (7 - k) % 8 = k := by omega
        simpa [Display.pixel, hcol, hbit] using h1
  · rintro (h | ⟨px, rfl, h1, h2⟩)
    · exact Or.inl h
    · exact Or.inr ⟨7 - px.val % 8, by omega, by rw [Display.pixel_eq] at h2; exact h2, h1⟩

theorem Blit.spriteRows_nil (px py k : Nat) (b : Blit) : Blit.spriteRows px py k [] b = b := rfl

theorem Blit.spriteRows_cons (px py k : Nat) (v : Byte) (vs : List Byte) (b : Blit) :
    Blit.spriteRows px py k (v :: vs) b = Blit.spriteRows px py (k + 1) vs (b.spriteRow px py k v) := rfl

/-! ### A row of a sprite, and the rows in order -/

/-- Whether the sprite row `v` drawn at x coordinate `px` lights column `qx` (R142). -/
def litRow (px : Nat) (v : Byte) (qx : Fin 64) : Bool :=
  decide ((qx.val + (64 - px % 64)) % 64 < 8) && v.getLsbD (7 - (qx.val + (64 - px % 64)) % 64)

/-- Bit `7 - j` lands on column `(px + j) mod 64`. -/
theorem litRow_iff (px : Nat) (v : Byte) (qx : Fin 64) :
    litRow px v qx = true ↔ ∃ j < 8, (px + j) % 64 = qx.val ∧ v.getLsbD (7 - j) = true := by
  simp only [litRow, Bool.and_eq_true, decide_eq_true_eq]
  constructor
  · rintro ⟨h, hv⟩; exact ⟨_, h, by omega, hv⟩
  · rintro ⟨j, hj, hq, hv⟩
    have : (qx.val + (64 - px % 64)) % 64 = j := by omega
    rw [this]; exact ⟨hj, hv⟩

/-- An aligned row lies in one column byte. -/
theorem litRow_aligned (px : Nat) (v : Byte) (qx : Fin 64) (h0 : px % 8 = 0) :
    litRow px v qx = (decide (qx.val / 8 = px / 8 % 8) && (v >>> 0).getLsbD (7 - qx.val % 8)) := by
  simp only [litRow, BitVec.ushiftRight_zero]
  by_cases hc : qx.val / 8 = px / 8 % 8
  · have e : (qx.val + (64 - px % 64)) % 64 = qx.val % 8 := by omega
    have e2 : qx.val % 8 < 8 := by omega
    rw [e, decide_eq_true hc, decide_eq_true e2]
  · have e : ¬ (qx.val + (64 - px % 64)) % 64 < 8 := by omega
    rw [decide_eq_false hc, decide_eq_false e]; rfl

/-- A shifted row lies in two neighbouring column bytes, the last one's neighbour being the first. -/
theorem litRow_shifted (px : Nat) (v : Byte) (qx : Fin 64) (_h0 : ¬ px % 8 = 0) :
    litRow px v qx = ((decide (qx.val / 8 = px / 8 % 8) && (v >>> (px % 8)).getLsbD (7 - qx.val % 8)) ||
      (decide (qx.val / 8 = (px / 8 + 1) % 8) && (v <<< (8 - px % 8)).getLsbD (7 - qx.val % 8))) := by
  simp only [litRow, BitVec.getLsbD_ushiftRight, BitVec.getLsbD_shiftLeft]
  by_cases hc : qx.val / 8 = px / 8 % 8
  · have hc1 : ¬ qx.val / 8 = (px / 8 + 1) % 8 := by omega
    rw [decide_eq_true hc, decide_eq_false hc1]
    by_cases hs : px % 8 ≤ qx.val % 8
    · have e : (qx.val + (64 - px % 64)) % 64 = qx.val % 8 - px % 8 := by omega
      have e2 : px % 8 + (7 - qx.val % 8) = 7 - (qx.val % 8 - px % 8) := by omega
      have e3 : qx.val % 8 - px % 8 < 8 := by omega
      rw [e, e2, decide_eq_true e3]; simp
    · have e : ¬ (qx.val + (64 - px % 64)) % 64 < 8 := by omega
      have e2 : v.getLsbD (px % 8 + (7 - qx.val % 8)) = false := BitVec.getLsbD_of_ge _ _ (by omega)
      rw [e2, decide_eq_false e]; simp
  · rw [decide_eq_false hc]
    by_cases hc1 : qx.val / 8 = (px / 8 + 1) % 8
    · rw [decide_eq_true hc1]
      by_cases hs : qx.val % 8 < px % 8
      · have e : (qx.val + (64 - px % 64)) % 64 = qx.val % 8 + 8 - px % 8 := by omega
        have e2 : 7 - qx.val % 8 - (8 - px % 8) = 7 - (qx.val % 8 + 8 - px % 8) := by omega
        have e3 : ¬ (7 - qx.val % 8 < 8 - px % 8) := by omega
        have e4 : 7 - qx.val % 8 < 8 := by omega
        have e5 : qx.val % 8 + 8 - px % 8 < 8 := by omega
        rw [e, e2, decide_eq_true e5, decide_eq_false e3, decide_eq_true e4]; simp
      · have e : ¬ (qx.val + (64 - px % 64)) % 64 < 8 := by omega
        have e3 : (7 - qx.val % 8 < 8 - px % 8) := by omega
        rw [decide_eq_false e, decide_eq_true e3]; simp
    · have e : ¬ (qx.val + (64 - px % 64)) % 64 < 8 := by omega
      rw [decide_eq_false e, decide_eq_false hc1]; simp

/-- The columns of the left part's byte. -/
theorem colOf_eq (px : Nat) (qx : Fin 64) : (colOf qx = Fin.ofNat 8 (px / 8)) ↔ qx.val / 8 = px / 8 % 8 := by
  rw [Fin.ext_iff]; simp only [Fin.ofNat, colOf]

/-- The columns of the next byte. -/
theorem colOf_eq_next (px : Nat) (qx : Fin 64) : (colOf qx = Fin.ofNat 8 (px / 8) + 1) ↔ qx.val / 8 = (px / 8 + 1) % 8 := by
  rw [Fin.ext_iff, Fin.val_add]; simp [Fin.ofNat, colOf]

/-- A sprite row inverts the pixels it lights, on its own display row, and no other (R141, R142). -/
theorem Blit.spriteRow_pixel (px py k : Nat) (v : Byte) (b : Blit) (qx : Fin 64) (qy : Fin 32) :
    (b.spriteRow px py k v).disp.pixel qx qy =
      (b.disp.pixel qx qy ^^ (decide ((py + k) % 32 = qy.val) && litRow px v qx)) := by
  have hrow : (qy = Fin.ofNat 32 (py + k)) ↔ (py + k) % 32 = qy.val := by
    rw [Fin.ext_iff]; simp only [Fin.ofNat]; exact eq_comm
  simp only [Blit.spriteRow]
  split
  · rename_i h0
    rw [Blit.part_disp, Display.pixel_xorByte, litRow_aligned _ _ _ h0]
    simp only [hrow, colOf_eq, h0, Bool.decide_and, Bool.and_assoc]
  · rename_i h0
    rw [Blit.part_disp, Display.pixel_xorByte, Blit.part_disp, Display.pixel_xorByte, Bool.xor_assoc, litRow_shifted _ _ _ h0]
    simp only [hrow, colOf_eq, colOf_eq_next, Bool.decide_and, Bool.and_assoc]
    have : ¬ (qx.val / 8 = px / 8 % 8 ∧ qx.val / 8 = (px / 8 + 1) % 8) := by omega
    cases decide ((py + k) % 32 = qy.val)
    · simp
    · by_cases hc : qx.val / 8 = px / 8 % 8
      · rw [decide_eq_false (fun h => this ⟨hc, h⟩)]; simp
      · rw [decide_eq_false hc]; simp

/-- A sprite row collides exactly when it lights a lit pixel (R144). -/
theorem Blit.spriteRow_hit (px py k : Nat) (v : Byte) (b : Blit) :
    (b.spriteRow px py k v).hit = true ↔
      b.hit = true ∨ ∃ qx, litRow px v qx = true ∧ b.disp.pixel qx (Fin.ofNat 32 (py + k)) = true := by
  simp only [Blit.spriteRow]
  split
  · rename_i h0
    rw [Blit.part_hit]
    apply or_congr Iff.rfl
    apply exists_congr; intro qx
    rw [litRow_aligned _ _ _ h0, colOf_eq, ← and_assoc, h0]
    simp
  · rename_i h0
    rw [Blit.part_hit, Blit.part_hit, or_assoc]
    apply or_congr Iff.rfl
    have key : ∀ qx : Fin 64, litRow px v qx = true ↔
       (qx.val / 8 = px / 8 % 8 ∧ (v >>> (px % 8)).getLsbD (7 - qx.val % 8) = true) ∨ (qx.val / 8 = (px / 8 + 1) % 8 ∧ (v <<< (8 - px % 8)).getLsbD (7 - qx.val % 8) = true) := by
      intro qx; rw [litRow_shifted _ _ _ h0]; simp only [Bool.or_eq_true, Bool.and_eq_true, decide_eq_true_eq]
    have hp : ∀ qx : Fin 64, colOf qx = Fin.ofNat 8 (px / 8) + 1 → (b.part (Fin.ofNat 32 (py + k)) (Fin.ofNat 8 (px / 8)) (v >>> (px % 8))).disp.pixel qx (Fin.ofNat 32 (py + k)) = b.disp.pixel qx (Fin.ofNat 32 (py + k)) := by
      intro qx h
      rw [Blit.part_disp, Display.pixel_xorByte]
      have : ¬ colOf qx = Fin.ofNat 8 (px / 8) := by rw [colOf_eq]; rw [colOf_eq_next] at h; omega
      rw [decide_eq_false (fun h => this h.2)]; simp
    constructor
    · rintro (⟨qx, h1, h2, h3⟩ | ⟨qx, h1, h2, h3⟩)
      · exact ⟨qx, (key qx).2 (Or.inl ⟨(colOf_eq _ _).1 h1, h2⟩), h3⟩
      · rw [hp _ h1] at h3
        exact ⟨qx, (key qx).2 (Or.inr ⟨(colOf_eq_next _ _).1 h1, h2⟩), h3⟩
    · rintro ⟨qx, hl, h3⟩
      rcases (key qx).1 hl with ⟨h1, h2⟩ | ⟨h1, h2⟩
      · exact Or.inl ⟨qx, (colOf_eq _ _).2 h1, h2, h3⟩
      · exact Or.inr ⟨qx, (colOf_eq_next _ _).2 h1, h2, by rw [hp _ ((colOf_eq_next _ _).2 h1)]; exact h3⟩

/-- At most 32 rows, so no two on one display row: the pixels they invert, and when they collide (R142, R144). -/
theorem Blit.spriteRows_spec (px py : Nat) (vs : List Byte) (k : Nat) (b : Blit) (hk : vs.length ≤ 32) :
   (∀ qx qy, (Blit.spriteRows px py k vs b).disp.pixel qx qy =
      (b.disp.pixel qx qy ^^ decide (∃ m, ∃ h : m < vs.length, (py + k + m) % 32 = qy.val ∧ litRow px vs[m] qx = true))) ∧
   ((Blit.spriteRows px py k vs b).hit = true ↔
      b.hit = true ∨ ∃ qx qy, (∃ m, ∃ h : m < vs.length, (py + k + m) % 32 = qy.val ∧ litRow px vs[m] qx = true) ∧ b.disp.pixel qx qy = true) := by
  induction vs generalizing k b with
  | nil => simp [Blit.spriteRows_nil]
  | cons v vs ih =>
    rw [Blit.spriteRows_cons]
    simp only [List.length_cons] at hk
    obtain ⟨i1, i2⟩ := ih (k + 1) (b.spriteRow px py k v) (by omega)
    have hex : ∀ (qx : Fin 64) (qy : Fin 32), (∃ m, ∃ h : m < (v :: vs).length, (py + k + m) % 32 = qy.val ∧ litRow px (v :: vs)[m] qx = true) ↔
       ((py + k) % 32 = qy.val ∧ litRow px v qx = true) ∨ (∃ m, ∃ h : m < vs.length, (py + (k + 1) + m) % 32 = qy.val ∧ litRow px vs[m] qx = true) := by
      intro qx qy
      constructor
      · rintro ⟨m, hm, h1, h2⟩
        cases m with
        | zero => exact Or.inl ⟨h1, h2⟩
        | succ m => exact Or.inr ⟨m, by simpa using hm, by rw [← h1]; congr 1; omega, by simpa using h2⟩
      · rintro (⟨h1, h2⟩ | ⟨m, hm, h1, h2⟩)
        · exact ⟨0, by simp, h1, h2⟩
        · exact ⟨m + 1, by simpa using hm, by rw [← h1]; congr 1; omega, by simpa using h2⟩
    constructor
    · intro qx qy
      rw [i1, Blit.spriteRow_pixel]
      simp only [hex]
      by_cases h0 : (py + k) % 32 = qy.val
      · have hn : ¬ ∃ m, ∃ h : m < vs.length, (py + (k + 1) + m) % 32 = qy.val ∧ litRow px vs[m] qx = true := by
          rintro ⟨m, hm, h1, _⟩; omega
        simp only [hn, h0, decide_false, Bool.xor_false, true_and, or_false, decide_true, Bool.true_and, Bool.decide_eq_true]
      · simp [h0]
    · rw [i2, Blit.spriteRow_hit, or_assoc]
      apply or_congr Iff.rfl
      simp only [hex]
      constructor
      · rintro (⟨qx, h1, h2⟩ | ⟨qx, qy, ⟨m, hm, h1, h2⟩, h3⟩)
        · exact ⟨qx, _, Or.inl ⟨by simp, h1⟩, h2⟩
        · refine ⟨qx, qy, Or.inr ⟨m, hm, h1, h2⟩, ?_⟩
          rw [Blit.spriteRow_pixel] at h3
          have : ¬ (py + k) % 32 = qy.val := by omega
          simpa [this] using h3
      · rintro ⟨qx, qy, (⟨h1, h2⟩ | ⟨m, hm, h1, h2⟩), h3⟩
        · have : qy = Fin.ofNat 32 (py + k) := Fin.ext (by simp [h1])
          exact Or.inl ⟨qx, h2, by rw [← this]; exact h3⟩
        · refine Or.inr ⟨qx, qy, ⟨m, hm, h1, h2⟩, ?_⟩
          rw [Blit.spriteRow_pixel]
          have : ¬ (py + k) % 32 = qy.val := by omega
          simpa [this] using h3

end Sys2Proof.Machine
end

