-- ==== Sys2Proof/Laws/Step.lean ====
section
/-! SUPPORT. What a step can do, said once: which operation it is, and what the engine cycle answers in each run state. -/

namespace Sys2Proof.Machine

variable {s : State}

theorem step_none_issued (h : s.issued = []) (hf : s.run.isFaulted = false) : step s = engineStep s := by
  simp only [step, nextOp, h, idleOp, hf, Bool.false_eq_true, if_false, applyOp]

theorem step_running (hr : s.run = .running) (h : s.issued = []) : step s = engineStep s :=
  step_none_issued h (by rw [hr]; rfl)

theorem step_awaiting {r : Reg} (hr : s.run = .awaitingKey r) (h : s.issued = []) : step s = .next (s.reply .awaitKey) := by
  rw [step_none_issued h (by rw [hr]; rfl), engineStep, hr]

theorem step_faulted_idle (hf : s.run.isFaulted = true) (h : s.issued = []) : step s = .next s := by
  simp only [step, nextOp, h, idleOp, hf, if_true]

theorem step_issued {op : HostOp} {rest : List HostOp} (h : s.issued = op :: rest) (hd : op.dutiful s = true) :
    step s = applyOp op { s with issued := rest } := by
  simp only [step, nextOp, h, hd, if_true]

theorem step_breach {op : HostOp} {rest : List HostOp} (h : s.issued = op :: rest) (hd : op.dutiful s = false) :
    step s = .refused (.hostDuty op) := by
  simp only [step, nextOp, h, hd, Bool.false_eq_true, if_false]

/-- Every step is one of four: the engine cycle, rest after an error, an operation the host may call, one it must not. -/
theorem step_cases (s : State) :
    (s.issued = [] ∧ s.run.isFaulted = false ∧ step s = engineStep s) ∨
    (s.issued = [] ∧ s.run.isFaulted = true ∧ step s = .next s) ∨
    (∃ op rest, s.issued = op :: rest ∧ op.dutiful s = true ∧ step s = applyOp op { s with issued := rest }) ∨
    (∃ op rest, s.issued = op :: rest ∧ op.dutiful s = false ∧ step s = .refused (.hostDuty op)) := by
  rcases hi : s.issued with _ | ⟨op, rest⟩
  · rcases hf : s.run.isFaulted with _ | _
    · exact Or.inl ⟨rfl, rfl, step_none_issued hi hf⟩
    · exact Or.inr (Or.inl ⟨rfl, rfl, step_faulted_idle hf hi⟩)
  · rcases hd : op.dutiful s with _ | _
    · exact Or.inr (Or.inr (Or.inr ⟨op, rest, rfl, hd, step_breach hi hd⟩))
    · exact Or.inr (Or.inr (Or.inl ⟨op, rest, rfl, hd, step_issued hi hd⟩))

theorem engineStep_fetched {op : Word} (hr : s.run = .running) (hf : s.fetchWord = some op) :
    engineStep s = runWord op s := by
  rw [engineStep, hr]
  simp only [hf]

theorem engineStep_no_fetch (hr : s.run = .running) (hf : s.fetchWord = none) :
    engineStep s = .next (s.raise (.addressOutOfRange s.pc) s.pc none) := by
  rw [engineStep, hr]
  simp only [hf]

theorem engineStep_awaiting {r : Reg} (hr : s.run = .awaitingKey r) : engineStep s = .next (s.reply .awaitKey) := by
  rw [engineStep, hr]

theorem engineStep_faulted {f : FaultRecord} (hr : s.run = .faulted f) :
    engineStep s = .next { s with report := some (.err f.error) } := by
  rw [engineStep, hr]

theorem runWord_ok {op : Word} {i : Instr} (h : decodeWord op = .ok i) : runWord op s = exec i s.advance := by
  rw [runWord, h]

theorem runWord_error {op : Word} {e : DecodeError} (h : decodeWord op = .error e) :
    runWord op s = .next (s.advance.raise (.invalidOpcode op) s.pc (some op)) := by
  rw [runWord, h]

/-- A load taken by a running machine: the fresh block with the model's own fields going on, or no block. -/
theorem reload_ok {file : Option (List Byte)} {t : State} (h : loadFile file = .ok t) :
    reload file s = .next { t with draws := s.draws, issued := s.issued, shiftSource := s.shiftSource } := by
  rw [reload, h]

theorem reload_error {file : Option (List Byte)} {e : LoadError} (h : loadFile file = .error e) :
    reload file s = .fault (.loadFailed e) := by
  rw [reload, h]

/-- Every engine cycle is one of five: a fetch fault, an invalid word, an instruction, a wait, a fault repeated. -/
theorem engineStep_cases (s : State) :
    (s.run = .running ∧ s.fetchWord = none ∧ engineStep s = .next (s.raise (.addressOutOfRange s.pc) s.pc none)) ∨
    (∃ op e, s.run = .running ∧ s.fetchWord = some op ∧ decodeWord op = .error e ∧
      engineStep s = .next (s.advance.raise (.invalidOpcode op) s.pc (some op))) ∨
    (∃ op i, s.run = .running ∧ s.fetchWord = some op ∧ decodeWord op = .ok i ∧ engineStep s = exec i s.advance) ∨
    (∃ r, s.run = .awaitingKey r ∧ engineStep s = .next (s.reply .awaitKey)) ∨
    (∃ f, s.run = .faulted f ∧ engineStep s = .next { s with report := some (.err f.error) }) := by
  rcases hr : s.run with _ | r | f
  · rcases hf : s.fetchWord with _ | op
    · exact Or.inl ⟨rfl, rfl, engineStep_no_fetch hr hf⟩
    · rcases hd : decodeWord op with e | i
      · exact Or.inr (Or.inl ⟨op, e, rfl, rfl, hd, by rw [engineStep_fetched hr hf, runWord_error hd]⟩)
      · exact Or.inr (Or.inr (Or.inl ⟨op, i, rfl, rfl, hd, by rw [engineStep_fetched hr hf, runWord_ok hd]⟩))
  · exact Or.inr (Or.inr (Or.inr (Or.inl ⟨r, rfl, engineStep_awaiting hr⟩)))
  · exact Or.inr (Or.inr (Or.inr (Or.inr ⟨f, rfl, by rw [engineStep_faulted hr, hr]⟩)))

end Sys2Proof.Machine
end

