-- ==== Sys2Proof/Laws/Exec.lean ====
section
/-! SUPPORT. The instructions that check something before they act: what each does where its check passes. Every other
instruction's meaning is one equation by definition. -/

namespace Sys2Proof.Machine

variable {s : State}

theorem exec_call_room (nnn : Imm12) (h : s.SP.val < 16) :
    exec (.call nnn) s =
      .next (({ s with stack := s.stack.set s.SP.val s.pc, SP := ⟨s.SP.val + 1, by omega⟩ }.jump (zextImm nnn)).reply .none) :=
  callTo_room s _ _ h

theorem exec_ret_some (h : 0 < s.SP.val) :
    exec .ret s =
      .next (({ s with SP := ⟨s.SP.val - 1, by omega⟩ }.jump (s.stack[s.SP.val - 1]'(by omega))).reply .none) :=
  returnFrom_some s _ h

theorem exec_skp_legal (x : Reg) (h : (s.getV x).toNat ≤ 0x0F) :
    exec (.skp x) s = .next ((s.skipIf (s.keypad.getLsbD (s.getV x).toNat)).reply .none) :=
  skipOnKey_legal s _ x (fun held => held) h

theorem exec_sknp_legal (x : Reg) (h : (s.getV x).toNat ≤ 0x0F) :
    exec (.sknp x) s = .next ((s.skipIf (!s.keypad.getLsbD (s.getV x).toNat)).reply .none) :=
  skipOnKey_legal s _ x (fun held => !held) h

theorem exec_ldBVx_in_range (x : Reg) (h : s.I.toNat + 2 ≤ 0xFFF) :
    exec (.ldBVx x) s = .next ((s.storeBytes s.I (bcdDigits (s.getV x))).reply .none) := by
  have hr : outOfRange s.I 3 = false := outOfRange_eq_false.2 (Or.inr (by omega))
  rw [exec, execLdBVx, checkRange_pass s _ _ hr, done_eq]

theorem exec_ldMemVx_in_range (x : Reg) (h : s.I.toNat + x.val ≤ 0xFFF) :
    exec (.ldMemVx x) s = .next ((s.storeBytes s.I (s.regsUpTo x)).reply .none) := by
  have hr : outOfRange s.I (x.val + 1) = false := outOfRange_eq_false.2 (Or.inr (by omega))
  rw [exec, execLdMemVx, checkRange_pass s _ _ hr, done_eq]

theorem exec_ldVxMem_in_range (x : Reg) (h : s.I.toNat + x.val ≤ 0xFFF) :
    exec (.ldVxMem x) s = .next ((s.loadRegs s.I x).reply .none) := by
  have hr : outOfRange s.I (x.val + 1) = false := outOfRange_eq_false.2 (Or.inr (by omega))
  rw [exec, execLdVxMem, checkRange_pass s _ _ hr, done_eq]

theorem exec_drw_in_range (x y : Reg) (n : Nat) (h : n = 0 ∨ s.I.toNat + n - 1 ≤ 0xFFF) :
    exec (.drw x y n) s =
      redraw ({ s with
        disp := (s.disp.drawSprite (s.getV x).toNat (s.getV y).toNat (s.readBytes s.I n)).disp }.setV VF
          (flagByte (s.disp.drawSprite (s.getV x).toNat (s.getV y).toNat (s.readBytes s.I n)).hit)) := by
  have hr : outOfRange s.I n = false := outOfRange_eq_false.2 (by omega)
  rw [exec, execDrw, checkRange_pass s _ _ hr]

end Sys2Proof.Machine
end

