-- ==== Sys2Proof/Laws/PerInstr.lean ====
section
/-! SUPPORT. Families of statements made per instruction: the round trip of encoding and decoding. -/

namespace Sys2Proof.Laws.RoundTrip

/-- Decoding the word of a well-formed instruction gives it back. -/
def Statement (i : Instr) : Prop := i.wf = true → decodeWord (encode i) = .ok i

theorem cls : Statement .cls := fun _ => rfl
theorem ret : Statement .ret := fun _ => rfl
theorem jp (nnn : Imm12) : Statement (.jp nnn) := fun _ => by simp [encode, decodeWord]
theorem call (nnn : Imm12) : Statement (.call nnn) := fun _ => by simp [encode, decodeWord]
theorem seImm (x : Reg) (kk : Byte) : Statement (.seImm x kk) := fun _ => by simp [encode, decodeWord]
theorem sneImm (x : Reg) (kk : Byte) : Statement (.sneImm x kk) := fun _ => by simp [encode, decodeWord]
theorem seReg (x y : Reg) : Statement (.seReg x y) := fun _ => by simp [encode, decodeWord]
theorem sneReg (x y : Reg) : Statement (.sneReg x y) := fun _ => by simp [encode, decodeWord]
theorem ldImm (x : Reg) (kk : Byte) : Statement (.ldImm x kk) := fun _ => by simp [encode, decodeWord]
theorem addImm (x : Reg) (kk : Byte) : Statement (.addImm x kk) := fun _ => by simp [encode, decodeWord]
theorem ldReg (x y : Reg) : Statement (.ldReg x y) := fun _ => by simp [encode, decodeWord, decodeAlu]
theorem orReg (x y : Reg) : Statement (.orReg x y) := fun _ => by simp [encode, decodeWord, decodeAlu]
theorem andReg (x y : Reg) : Statement (.andReg x y) := fun _ => by simp [encode, decodeWord, decodeAlu]
theorem xorReg (x y : Reg) : Statement (.xorReg x y) := fun _ => by simp [encode, decodeWord, decodeAlu]
theorem addReg (x y : Reg) : Statement (.addReg x y) := fun _ => by simp [encode, decodeWord, decodeAlu]
theorem subReg (x y : Reg) : Statement (.subReg x y) := fun _ => by simp [encode, decodeWord, decodeAlu]
theorem shr (x y : Reg) : Statement (.shr x y) := fun _ => by simp [encode, decodeWord, decodeAlu]
theorem subnReg (x y : Reg) : Statement (.subnReg x y) := fun _ => by simp [encode, decodeWord, decodeAlu]
theorem shl (x y : Reg) : Statement (.shl x y) := fun _ => by simp [encode, decodeWord, decodeAlu]
theorem ldI (nnn : Imm12) : Statement (.ldI nnn) := fun _ => by simp [encode, decodeWord]
theorem jpV0 (nnn : Imm12) : Statement (.jpV0 nnn) := fun _ => by simp [encode, decodeWord]
theorem rnd (x : Reg) (kk : Byte) : Statement (.rnd x kk) := fun _ => by simp [encode, decodeWord]
theorem drw (x y : Reg) (n : Nat) : Statement (.drw x y n) := fun h => by
  have hn : n % 16 = n := Nat.mod_eq_of_lt (by simp [Instr.wf] at h; omega)
  simp [encode, decodeWord, hn]
theorem skp (x : Reg) : Statement (.skp x) := fun _ => by simp [encode, decodeWord]
theorem sknp (x : Reg) : Statement (.sknp x) := fun _ => by simp [encode, decodeWord]
theorem ldVxDT (x : Reg) : Statement (.ldVxDT x) := fun _ => by simp [encode, decodeWord, decodeMisc]
theorem ldDTVx (x : Reg) : Statement (.ldDTVx x) := fun _ => by simp [encode, decodeWord, decodeMisc]
theorem ldSTVx (x : Reg) : Statement (.ldSTVx x) := fun _ => by simp [encode, decodeWord, decodeMisc]
theorem addIVx (x : Reg) : Statement (.addIVx x) := fun _ => by simp [encode, decodeWord, decodeMisc]
theorem ldFVx (x : Reg) : Statement (.ldFVx x) := fun _ => by simp [encode, decodeWord, decodeMisc]
theorem ldBVx (x : Reg) : Statement (.ldBVx x) := fun _ => by simp [encode, decodeWord, decodeMisc]
theorem ldMemVx (x : Reg) : Statement (.ldMemVx x) := fun _ => by simp [encode, decodeWord, decodeMisc]
theorem ldVxMem (x : Reg) : Statement (.ldVxMem x) := fun _ => by simp [encode, decodeWord, decodeMisc]
theorem ldVxK (x : Reg) : Statement (.ldVxK x) := fun _ => by simp [encode, decodeWord, decodeMisc]

end Sys2Proof.Laws.RoundTrip
end

