-- ==== Sys2Proof/Tests/Slice0.lean ====
section
/-! SUPPORT. The model's own tests. Expected results come from spec/: words from the patterns of 30_encoding.md R66, results
from the vectors of 95_test_vectors.md (named S<n>, F<n>, C<n>, A<n>, M<n>, D<n>, K<n> as there). The witnesses at the end
show, for every obligation with hypotheses, a concrete state and operands that meet them. -/

namespace Sys2Proof.Tests

open Sys2Proof Sys2Proof.Machine

set_option maxRecDepth 4000

/-! ### Helpers -/

/-- The state an answer leaves, if it leaves one. -/
def after : Answer → Option State
  | .next s => some s
  | .fault _ => none
  | .refused _ => none

/-- The state after reset with some registers set. -/
def regs (vs : List (Reg × Byte)) : State := vs.foldl (fun s p => s.setV p.1 p.2) State.reset

/-- `s` with bytes stored at an address. -/
def bytesAt (s : State) (addr : Word) (vs : List Byte) : State := s.storeBytes addr vs

/-- One step of the instruction word `w` from `s`. -/
def run (w : Nat) (s : State) : Option State := after (step (s.withFetchWord 16 w))

/-- One step of one host operation. -/
def host (op : HostOp) (s : State) : Option State := after (step { s with issued := [op] })

/-- The display bytes of a row. -/
def rowOf (t : State) (r : Fin 32) : List Byte := t.disp[r].toList

/-! ### Well-formedness: the one check -/

theorem test_wf_refuses_sixteen_rows : Instr.wf (.drw 0 1 16) = false := by decide
theorem test_wf_accepts_fifteen_rows : Instr.wf (.drw 0 1 15) = true := by decide

/-! ### Decoding: one word for every constructor, written out from the patterns of R66 -/

theorem test_decode_flow :
    [0b0000000011100000, 0b0000000011101110, 0b0001001000110100, 0b0010001100000000, 0b1011001100000001].map
      (decodeTableWord 16) =
    [some .cls, some .ret, some (.jp 0x234), some (.call 0x300), some (.jpV0 0x301)] := by decide

theorem test_decode_skips :
    [0b0011001100101010, 0b0100001100101010, 0b0101000100100000, 0b1001000100100000].map (decodeTableWord 16) =
    [some (.seImm 3 0x2A), some (.sneImm 3 0x2A), some (.seReg 1 2), some (.sneReg 1 2)] := by decide

theorem test_decode_immediates :
    [0b0110101000010010, 0b0111001111111111, 0b1100001100001111].map (decodeTableWord 16) =
    [some (.ldImm 10 0x12), some (.addImm 3 0xFF), some (.rnd 3 0x0F)] := by decide

theorem test_decode_alu :
    [0b1000000100100000, 0b1000000100100001, 0b1000000100100010, 0b1000000100100011, 0b1000000100100100,
     0b1000000100100101, 0b1000000100100110, 0b1000000100100111, 0b1000000100101110].map (decodeTableWord 16) =
    [some (.ldReg 1 2), some (.orReg 1 2), some (.andReg 1 2), some (.xorReg 1 2), some (.addReg 1 2),
     some (.subReg 1 2), some (.shr 1 2), some (.subnReg 1 2), some (.shl 1 2)] := by decide

theorem test_decode_index_and_memory :
    [0b1010001100000000, 0b1111001000011110, 0b1111101000101001, 0b1111000000110011, 0b1111001001010101,
     0b1111001001100101].map (decodeTableWord 16) =
    [some (.ldI 0x300), some (.addIVx 2), some (.ldFVx 10), some (.ldBVx 0), some (.ldMemVx 2), some (.ldVxMem 2)] := by
  decide

theorem test_decode_display_keypad_timer :
    [0b1101000100100101, 0b1110000010011110, 0b1110000010100001, 0b1111001100000111, 0b1111000100010101,
     0b1111001000011000, 0b1111001100001010].map (decodeTableWord 16) =
    [some (.drw 1 2 5), some (.skp 0), some (.sknp 0), some (.ldVxDT 3), some (.ldDTVx 1), some (.ldSTVx 2),
     some (.ldVxK 3)] := by decide

/-- F1 to F7, S8: words on no row. -/
theorem test_decode_rejects :
    [0x0123, 0x0000, 0x8128, 0x9121, 0xE000, 0xF000, 0xFFFF, 0x5001].map (decodeTableWord 16) =
    [none, none, none, none, none, none, none, none] := by decide

/-- R60: one length; the bytes after an instruction are left. -/
theorem test_decode_bytes : decode [0x23, 0x00, 0x00, 0xEE] = .ok (.call 0x300, [0x00, 0xEE]) := by decide
theorem test_decode_truncated : decode [0x23] = .error .truncated := by decide

/-! ### Steps: fetch and faults (2.1) -/

/-- F1: pc has advanced, the record holds the fetch address and the word. -/
theorem test_invalid_word : (run 0x0123 State.reset).map (fun t => (t.pc, t.run)) =
    some (0x202, .faulted ⟨.invalidOpcode 0x0123, 0x200, some 0x0123⟩) := by decide

/-- F8: a fetch fault leaves pc. -/
theorem test_fetch_at_the_top : (after (step { State.reset with pc := 0xFFF })).map (fun t => (t.pc, t.run)) =
    some (0xFFF, .faulted ⟨.addressOutOfRange 0xFFF, 0xFFF, none⟩) := by decide

/-- F9: pc may be odd. -/
theorem test_fetch_at_odd : (run 0x602A { State.reset with pc := 0x201 }).map (fun t => (t.pc, t.getV 0)) =
    some (0x203, 0x2A) := by decide

/-- F10: the last word of memory. -/
theorem test_fetch_last_word : (run 0x6001 { State.reset with pc := 0xFFE }).map (fun t => (t.pc, t.getV 0)) =
    some (0x1000, 1) := by decide

/-! ### Control flow (2.2) -/

/-- C1. -/
theorem test_ret : (run 0x00EE { State.reset with pc := 0x212, SP := 1, stack := State.reset.stack.set 0 0x206 }).map
    (fun t => (t.pc, t.SP)) = some (0x206, 0) := by decide
/-- C2. -/
theorem test_ret_underflow : (run 0x00EE { State.reset with pc := 0x212 }).map (fun t => (t.pc, t.run)) =
    some (0x214, .faulted ⟨.stackUnderflow, 0x212, some 0x00EE⟩) := by decide
/-- C3. -/
theorem test_jp : (run 0x1234 State.reset).map (·.pc) = some 0x234 := by decide
/-- C4. -/
theorem test_call : (run 0x2300 { State.reset with pc := 0x204 }).map (fun t => (t.pc, t.SP, t.stack[0])) =
    some (0x300, 1, 0x206) := by decide
/-- C5. -/
theorem test_call_overflow : (run 0x2300 { State.reset with pc := 0x204, SP := 16 }).map (fun t => (t.pc, t.run)) =
    some (0x206, .faulted ⟨.stackOverflow, 0x204, some 0x2300⟩) := by decide
/-- C6, C7. -/
theorem test_se_imm : [0x2A, 0x2B].map (fun v => (run 0x332A (regs [(3, v)])).map (·.pc)) = [some 0x204, some 0x202] := by
  decide
/-- C8, C9. -/
theorem test_sne_imm : [0x2B, 0x2A].map (fun v => (run 0x432A (regs [(3, v)])).map (·.pc)) = [some 0x204, some 0x202] := by
  decide
/-- C10. -/
theorem test_se_reg : [7, 8].map (fun v => (run 0x5120 (regs [(1, 7), (2, v)])).map (·.pc)) = [some 0x204, some 0x202] := by
  decide
/-- C12, C13. -/
theorem test_sne_reg : [0x9120, 0x9110].map (fun w => (run w (regs [(1, 7), (2, 8)])).map (·.pc)) =
    [some 0x204, some 0x202] := by decide
/-- C14, C15. -/
theorem test_jp_v0 : [(0xB300, 0x10), (0xBFFF, 0xFF)].map (fun p => (run p.1 (regs [(0, p.2)])).map (·.pc)) =
    [some 0x310, some 0x10FE] := by decide

/-! ### Arithmetic and logic (2.3): V[x] and VF after the step -/

/-- A1. -/
theorem test_ld_imm : (run 0x6A12 State.reset).map (·.getV 10) = some 0x12 := by decide
/-- A2, A3. -/
theorem test_add_imm_wraps : (run 0x73FF (regs [(3, 1), (VF, 9)])).map (fun t => (t.getV 3, t.getV VF)) = some (0, 9) := by
  decide
theorem test_add_imm_vf : (run 0x7F01 (regs [(VF, 0xFF)])).map (·.getV VF) = some 0 := by decide
/-- A4. -/
theorem test_ld_reg : (run 0x8120 (regs [(2, 0x55)])).map (·.getV 1) = some 0x55 := by decide
/-- A5. -/
theorem test_or : (run 0x8121 (regs [(1, 0xF0), (2, 0x0F), (VF, 7)])).map (fun t => (t.getV 1, t.getV VF)) =
    some (0xFF, 7) := by decide
/-- A6. -/
theorem test_and : (run 0x8122 (regs [(1, 0xF0), (2, 0x3C), (VF, 7)])).map (fun t => (t.getV 1, t.getV VF)) =
    some (0x30, 7) := by decide
/-- A7. -/
theorem test_xor : (run 0x8123 (regs [(1, 0xFF), (2, 0x0F), (VF, 7)])).map (fun t => (t.getV 1, t.getV VF)) =
    some (0xF0, 7) := by decide
/-- A9, A11. -/
theorem test_add_reg : [(0xFF, 0x01), (0xF0, 0x0F)].map (fun p =>
    (run 0x8124 (regs [(1, p.1), (2, p.2)])).map (fun t => (t.getV 1, t.getV VF))) = [some (0, 1), some (0xFF, 0)] := by
  decide
/-- A13, A14. -/
theorem test_add_reg_vf : [0x8F14, 0x81F4].map (fun w =>
    (run w (regs [(1, 0x90), (VF, 0x80)])).map (fun t => (t.getV 1, t.getV VF))) = [some (0x90, 1), some (0x10, 1)] := by
  decide
/-- A15, A16, A17. -/
theorem test_sub : [(5, 3), (4, 4), (3, 5)].map (fun p =>
    (run 0x8125 (regs [(1, p.1), (2, p.2)])).map (fun t => (t.getV 1, t.getV VF))) =
    [some (2, 1), some (0, 0), some (0xFE, 0)] := by decide
/-- A19, A20, A21. -/
theorem test_subn : [(3, 5), (4, 4), (5, 3)].map (fun p =>
    (run 0x8127 (regs [(1, p.1), (2, p.2)])).map (fun t => (t.getV 1, t.getV VF))) =
    [some (2, 1), some (0, 0), some (0xFE, 0)] := by decide
/-- A22, A24, A32. -/
theorem test_shr : [(0x8106, 0x05), (0x8106, 0xFE), (0x8126, 0x05)].map (fun p =>
    (run p.1 (regs [(1, p.2), (2, 0xFF)])).map (fun t => (t.getV 1, t.getV VF))) =
    [some (2, 1), some (0x7F, 0), some (2, 1)] := by decide
/-- A26, A29. -/
theorem test_shl : [(0x810E, 1), (0x8F0E, 15)].map (fun p =>
    (run p.1 (regs [(p.2, 0x81)])).map (fun t => (t.getV p.2, t.getV VF))) = [some (2, 1), some (1, 1)] := by decide
/-- A30, A31. -/
theorem test_shift_vy : [(0x8126, 0xFF, 0x03), (0x812E, 0x01, 0x81)].map (fun p =>
    (run p.1 { regs [(1, p.2.1), (2, p.2.2)] with shiftSource := .vy }).map (fun t => (t.getV 1, t.getV VF))) =
    [some (1, 1), some (2, 1)] := by decide
/-- A33. -/
theorem test_rnd : (after (randomAnd 0xAB 3 0x0F State.reset)).map (fun t => (t.getV 3, t.draws)) = some (0x0B, 1) := by
  decide

/-! ### Index register and memory (2.4) -/

/-- M2. -/
theorem test_ld_i : (run 0xA300 { State.reset with I := 0x1234 }).map (·.I) = some 0x300 := by decide
/-- M4, M5. -/
theorem test_add_i : [(0xFFF, 1), (0xFFFF, 2)].map (fun p =>
    (run 0xF21E { regs [(2, p.2)] with I := p.1 }).map (·.I)) = [some 0x1000, some 0x0001] := by decide
/-- M6, M8. -/
theorem test_ld_f : [0x0A, 0xFF].map (fun v => (run 0xFA29 (regs [(10, v)])).map (·.I)) = [some 0x032, some 0x4FB] := by
  decide
/-- M9, M13. -/
theorem test_bcd : [(234, 0x300), (123, 0xFFD)].map (fun p =>
    (run 0xF033 { regs [(0, p.1)] with I := p.2 }).map (fun t => t.readBytes p.2 3)) =
    [some [2, 3, 4], some [1, 2, 3]] := by decide
/-- M14. -/
theorem test_bcd_out_of_range : (run 0xF033 { regs [(0, 123)] with I := 0xFFE }).map (fun t => (t.readBytes 0xFFE 2, t.run)) =
    some ([0, 0], .faulted ⟨.addressOutOfRange 0xFFE, 0x200, some 0xF033⟩) := by decide
/-- M15, M16. -/
theorem test_dump : (run 0xF255 { regs [(0, 1), (1, 2), (2, 3), (3, 9)] with I := 0x400 }).map
    (fun t => (t.readBytes 0x400 4, t.I)) = some ([1, 2, 3, 0], 0x400) := by decide
theorem test_dump_to_the_top : (run 0xFF55 { regs [(VF, 0xEE)] with I := 0xFF0 }).map (fun t => t.readBytes 0xFFE 2) =
    some [0, 0xEE] := by decide
/-- M18, M19. -/
theorem test_load : (run 0xF265 { bytesAt (regs [(3, 0x77)]) 0x300 [2, 3, 4, 9] with I := 0x300 }).map
    (fun t => (t.getV 0, t.getV 1, t.getV 2, t.getV 3, t.I)) = some (2, 3, 4, 0x77, 0x300) := by decide
theorem test_load_font : (run 0xFF65 State.reset).map (fun t => t.V.toList) =
    some [0xF0, 0x90, 0x90, 0x90, 0xF0, 0x20, 0x60, 0x20, 0x20, 0x70, 0xF0, 0x10, 0xF0, 0x80, 0xF0, 0xF0] := by decide

/-! ### Display (2.5) -/

/-- D17. -/
theorem test_cls : (run 0x00E0 { regs [(VF, 9)] with
      disp := State.reset.disp.xorByte 3 3 0x5A }).map (fun t => (t.disp, t.getV VF, t.report)) =
    some (Display.blank, 9, some (.ok (.redraw Display.blank))) := by decide
/-- D8: a sprite at (255, 255) wraps to column 63 and row 31. -/
theorem test_drw_wraps : (run 0xD011 { bytesAt (regs [(0, 255), (1, 255)]) 0x300 [0xFF] with I := 0x300 }).map
    (fun t => (rowOf t 31, t.getV VF)) = some ([0xFE, 0, 0, 0, 0, 0, 0, 0x01], 0) := by decide
/-- D11: the first row's collision sticks. -/
theorem test_drw_collides : (run 0xD012 { bytesAt State.reset 0x300 [0x80, 0x80] with
      I := 0x300, disp := State.reset.disp.xorByte 0 0 0x80 }).map (fun t => (rowOf t 0, rowOf t 1, t.getV VF)) =
    some ([0, 0, 0, 0, 0, 0, 0, 0], [0x80, 0, 0, 0, 0, 0, 0, 0], 1) := by decide

/-! ### Keypad, timers and the wait (2.6) -/

/-- K5, K6. -/
theorem test_skp : (run 0xE09E { regs [(0, 0x0F)] with keypad := 0x8000 }).map (·.pc) = some 0x204 := by decide
theorem test_skp_illegal_key : (run 0xE09E { regs [(0, 0x10)] with keypad := 0xFFFF }).map (fun t => (t.pc, t.run)) =
    some (0x202, .faulted ⟨.keyOutOfRange 0x10, 0x200, some 0xE09E⟩) := by decide
/-- K3, K4. -/
theorem test_sknp : [0x0000, 0x0080].map (fun m => (run 0xE0A1 { regs [(0, 7)] with keypad := m }).map (·.pc)) =
    [some 0x204, some 0x202] := by decide
/-- K8, K9, K10. -/
theorem test_ld_vx_dt : (run 0xF307 { State.reset with DT := 0x3C }).map (·.getV 3) = some 0x3C := by decide
theorem test_ld_dt_vx : (run 0xF115 (regs [(1, 3)])).map (fun t => (t.DT, t.ST)) = some (3, 0) := by decide
theorem test_ld_st_vx : (run 0xF218 (regs [(2, 0x10)])).map (fun t => (t.DT, t.ST)) = some (0, 0x10) := by decide
/-- K11. -/
theorem test_timers_saturate : (host .decrementTimers { State.reset with DT := 2 }).map (fun t => (t.DT, t.ST)) =
    some (1, 0) := by decide
/-- K12, K16. -/
theorem test_wait : (run 0xF30A State.reset).map (fun t => (t.pc, t.run, t.report)) =
    some (0x202, .awaitingKey 3, some (.ok .awaitKey)) := by decide
theorem test_deliver : (host (.deliverKey 0x0B) { State.reset with run := .awaitingKey 3 }).map
    (fun t => (t.getV 3, t.run)) = some (0x0B, .running) := by decide
/-- K15. -/
theorem test_mask_does_not_end_a_wait : (host (.setKeypad 0xFFFF) { State.reset with run := .awaitingKey 3 }).map
    (fun t => (t.keypad, t.run)) = some (0xFFFF, .awaitingKey 3) := by decide

/-- R89: a stray key, a key that is no hex digit, and a step after an error are no moves of the machine; key 0xF is one. -/
theorem test_forbidden_calls :
    ([(.deliverKey 0x0B, State.reset), (.deliverKey 0x10, { State.reset with run := .awaitingKey 3 }),
      (.step, { State.reset with run := .faulted ⟨.stackOverflow, 0x200, some 0x2200⟩ }),
      (.deliverKey 0x0F, { State.reset with run := .awaitingKey 3 })].map fun p : HostOp × State =>
        (host p.1 p.2).isSome) = [false, false, false, true] := by decide

/-- F11 (R84): `step` on a faulted block, which the host must not call, changes nothing and returns the error again. -/
theorem test_step_on_a_faulted_block :
    after (applyOp .step { State.reset with run := .faulted ⟨.invalidOpcode 0x0123, 0x200, some 0x0123⟩ }) =
    some { State.reset with
      run := .faulted ⟨.invalidOpcode 0x0123, 0x200, some 0x0123⟩, report := some (.err (.invalidOpcode 0x0123)) } := by
  decide

/-! ### Loading, error codes (S1, 60_exceptions.md R161) -/

theorem test_load_one_byte : (newBlock [0x12]).toOption.map (fun s => (s.readByte 0x200, s.fetchWord)) =
    some (0x12, some 0x1200) := by decide
theorem test_error_codes :
    ([.invalidOpcode 0, .stackOverflow, .stackUnderflow, .addressOutOfRange 0, .keyOutOfRange 0].map ExecutionError.code,
     [.imageTooLarge 3585, .io].map LoadError.code) = ([1, 2, 3, 4, 5], [16, 17]) := by decide

/-! ### The assembler text of R69 -/

theorem test_assemble : ["LD V0, 0xEA", "DRW V1, V2, 5", "shr va", "LD [I], V2", "JP V0, #3FF"].map Assembler.assemble =
    [some (.ldImm 0 0xEA), some (.drw 1 2 5), some (.shr 10 0), some (.ldMemVx 2), some (.jpV0 0x3FF)] := by decide
theorem test_text : (Assembler.text (.ldI 0x300), Assembler.assemble (Assembler.text (.sneReg 10 15))) =
    ("LD I, 0x300", some (.sneReg 10 15)) := by decide

/-! ### Witnesses: states and operands that meet the hypotheses of the obligations -/

/-- A machine stopped by a call too deep, with two operations issued that the host may still call. -/
def faultedState : State :=
  { State.reset with
    run := .faulted ⟨.stackOverflow, 0x200, some 0x2200⟩, issued := [.decrementTimers, .setKeypad 1]
    report := some (.err .stackOverflow) }

/-- A machine that waits for a key for V3. -/
def waitingState : State := { State.reset with run := .awaitingKey 3 }

/-- A machine with the words of a call and of a return at its target. -/
def callState : State := bytesAt (bytesAt State.reset 0x200 [0x23, 0x00]) 0x300 [0x00, 0xEE]

/-- A machine at a self-jump. -/
def selfJumpState : State := bytesAt State.reset 0x200 [0x12, 0x00]

theorem witness_DecodeOfEncodeIsTheInstruction : Instr.wf (.drw 15 0 15) = true := by decide
theorem witness_EncodeOfDecodeIsTheWord : decodeWord 0xDF0F = .ok (.drw 15 0 15) := by decide

/-- A word on a row (the last one), and a word on none. -/
theorem witness_DecoderFollowsTheOpcodeMap :
    (∃ r ∈ opcodeMap, (0xFF0A : Word) &&& r.mask = r.bits) ∧ ∀ r ∈ opcodeMap, (0xFF0B : Word) &&& r.mask ≠ r.bits := by
  decide

/-- The first and last words of each range of R64. -/
theorem witness_InvalidWordsAreThoseListed :
    [0x0000, 0x00E1, 0x0FFF, 0x5001, 0x5FFF, 0x8008, 0x8FFF, 0x9001, 0x9FFF, 0xE000, 0xEFFF, 0xF000, 0xFFFF].map
      (decodeTableWord 16) = List.replicate 13 none := by decide

/-- A fetch past the end, a legal word at the last address, an invalid one there. -/
theorem witness_StepRunsTheDecodedInstruction :
    (State.reset.run = .running ∧ State.reset.issued = [] ∧ ({ State.reset with pc := 0xFFF } : State).pc.toNat > 0xFFE) ∧
    (({ State.reset with pc := 0xFFE } : State).pc.toNat ≤ 0xFFE ∧
      (bytesAt State.reset 0xFFE [0x60, 0x01]).readByte 0xFFE ++ (bytesAt State.reset 0xFFE [0x60, 0x01]).readByte 0xFFF =
        (0x6001 : Word)) ∧
    decodeWord 0x6001 = .ok (.ldImm 0 1) ∧ decodeWord 0x0000 = .error (.invalidOpcode 0x0000) := by decide

/-- A step, a mask, a wait and its key, in an order the host may issue; nothing issued, running and faulted. -/
theorem witness_OperationsAreTakenInTheOrderIssued :
    dutifulAll [.step, .setKeypad 8, .step, .deliverKey 0xF] (State.reset.withFetchWord 16 0xF30A) ∧
    (State.reset.issued = [] ∧ State.reset.run.isFaulted = false) ∧
    ({ faultedState with issued := [] } : State).issued = [] ∧ faultedState.run.isFaulted = true := by
  refine ⟨⟨rfl, fun t h => ?_⟩, by decide, rfl, rfl⟩
  injection h with h; subst h
  refine ⟨rfl, fun t h => ?_⟩
  injection h with h; subst h
  refine ⟨rfl, fun t h => ?_⟩
  injection h with h; subst h
  exact ⟨rfl, fun _ _ => trivial⟩

/-- An operation the host may call and one it must not; each call at the edges of its condition. -/
theorem witness_HostHasNoForbiddenMove :
    (faultedState.issued = [.decrementTimers, .setKeypad 1] ∧ HostOp.dutiful faultedState .decrementTimers = true) ∧
    (({ faultedState with issued := [.step] } : State).issued = [.step] ∧ HostOp.dutiful faultedState .step = false) ∧
    HostOp.dutiful State.reset .step = true ∧ HostOp.dutiful waitingState .step = true ∧
    [0x00, 0x0F, 0x10, 0xFF].map (fun v => HostOp.dutiful waitingState (.deliverKey v)) = [true, true, false, false] ∧
    HostOp.dutiful State.reset (.deliverKey 0) = false ∧ HostOp.dutiful faultedState (.deliverKey 0) = false := by decide
theorem witness_PlacedWordIsTheNextInstruction :
    State.memoryCanonical { State.reset with pc := 0xFFFF } ∧ decodeWord 0x6001 = .ok (.ldImm 0 1) := ⟨rfl, by decide⟩
theorem witness_StepWhileAwaitingChangesNothing : waitingState.run = .awaitingKey 3 ∧ waitingState.issued = [] := by decide
theorem witness_FaultedIsAbsorbing :
    (faultedState.run = .faulted ⟨.stackOverflow, 0x200, some 0x2200⟩ ∧
      ∀ file, HostOp.new file ∉ [.step, .deliverKey 3, .setKeypad 1]) ∧
    (∀ op ∈ faultedState.issued, op = .decrementTimers ∨ ∃ m, op = .setKeypad m) ∧ faultedState.run.isFaulted = true := by
  refine ⟨⟨rfl, fun file h => ?_⟩, fun op h => ?_, rfl⟩
  · simp at h
  · simp only [faultedState, List.mem_cons, List.not_mem_nil, or_false] at h
    exact h.imp_right fun h => ⟨1, h⟩

/-- A transition of each line: an instruction, the wait, an error of a word other than `LD Vx, K`; the other operations while
running; the four of a wait; a fault. -/
theorem witness_RunStateTransitions :
    (∃ t, applyOp .step (State.reset.withFetchWord 16 0x6001) = .next t ∧ t.run = .running) ∧
    (∃ t, applyOp .step (State.reset.withFetchWord 16 0xF30A) = .next t ∧ t.run = .awaitingKey 3) ∧
    (∃ t, applyOp .step State.reset = .next t ∧ t.run = .faulted ⟨.invalidOpcode 0, 0x200, some 0⟩) ∧
    (∀ op ∈ [HostOp.decrementTimers, .setKeypad 1, .deliverKey 15], ∃ t, applyOp op State.reset = .next t) ∧
    (∀ op ∈ [HostOp.step, .decrementTimers, .setKeypad 1, .deliverKey 15], ∃ t, applyOp op waitingState = .next t) ∧
    ∃ t, applyOp .step faultedState = .next t := by
  refine ⟨⟨_, rfl, rfl⟩, ⟨_, rfl, rfl⟩, ⟨_, rfl, rfl⟩, ?_, ?_, ⟨_, rfl⟩⟩ <;>
    (intro op h; simp only [List.mem_cons, List.not_mem_nil, or_false] at h)
  · rcases h with rfl | rfl | rfl <;> exact ⟨_, rfl⟩
  · rcases h with rfl | rfl | rfl | rfl <;> exact ⟨_, rfl⟩

/-- A fetch that fails, an invalid word, an instruction's own error. -/
theorem witness_FaultsArePrecise :
    (∃ t, step { State.reset with pc := 0xFFF } = .next t ∧ t.run = .faulted ⟨.addressOutOfRange 0xFFF, 0xFFF, none⟩) ∧
    (∃ t, step State.reset = .next t ∧ t.run = .faulted ⟨.invalidOpcode 0, 0x200, some 0⟩) ∧
    ∃ t, step (State.reset.withFetchWord 16 0x00EE) = .next t ∧ t.run = .faulted ⟨.stackUnderflow, 0x200, some 0x00EE⟩ :=
  ⟨⟨_, rfl, rfl⟩, ⟨_, rfl, rfl⟩, ⟨_, rfl, rfl⟩⟩

/-- Each checking instruction at the last operand that passes and at the first that fails. -/
theorem witness_OwnErrorsExactlyWhenChecked :
    (ownError (.call 0) { State.reset with SP := 15 }, ownError (.call 0) { State.reset with SP := 16 }) =
      (none, some .stackOverflow) ∧
    (ownError .ret { State.reset with SP := 1 }, ownError .ret State.reset) = (none, some .stackUnderflow) ∧
    (ownError (.drw 0 0 15) { State.reset with I := 0xFF1 }, ownError (.drw 0 0 15) { State.reset with I := 0xFF2 },
      ownError (.drw 0 0 0) { State.reset with I := 0xFFFF }) = (none, some (.addressOutOfRange 0xFF2), none) ∧
    (ownError (.ldBVx 0) { State.reset with I := 0xFFD }, ownError (.ldBVx 0) { State.reset with I := 0xFFE }) =
      (none, some (.addressOutOfRange 0xFFE)) ∧
    (ownError (.ldMemVx 15) { State.reset with I := 0xFF0 }, ownError (.ldMemVx 15) { State.reset with I := 0xFF1 }) =
      (none, some (.addressOutOfRange 0xFF1)) ∧
    (ownError (.ldVxMem 15) { State.reset with I := 0xFF0 }, ownError (.ldVxMem 15) { State.reset with I := 0xFF1 }) =
      (none, some (.addressOutOfRange 0xFF1)) ∧
    (ownError (.skp 0) (regs [(0, 0x0F)]), ownError (.skp 0) (regs [(0, 0x10)])) = (none, some (.keyOutOfRange 0x10)) ∧
    (ownError (.sknp 0) (regs [(0, 0x0F)]), ownError (.sknp 0) (regs [(0, 0x10)])) = (none, some (.keyOutOfRange 0x10)) ∧
    State.reset.run = .running := by decide

theorem witness_OnlyAFailedLoadStopsTheMachine :
    step { State.reset with issued := [.new none] } = .fault (.loadFailed .io) ∧
    step { State.reset with issued := [.deliverKey 3] } = .refused (.hostDuty (.deliverKey 3)) := ⟨rfl, rfl⟩

/-- SP = 15 and 16, the two clauses of `CALL`; SP = 16, 1 and 0, those of `RET`. -/
theorem witness_CallResult : ({ State.reset with SP := 15 } : State).SP.val < 16 ∧
    ({ State.reset with SP := 16 } : State).SP.val = 16 := by decide
theorem witness_RetResult : 0 < ({ State.reset with SP := 16 } : State).SP.val ∧
    0 < ({ State.reset with SP := 1 } : State).SP.val ∧ State.reset.SP.val = 0 := by decide
theorem witness_CallThenRetComesBack : callState.run = .running ∧ callState.issued = [] ∧ callState.SP.val < 16 ∧
    callState.fetchWord = some (encode (.call 0x300)) ∧
    ({ callState with pc := zextImm 0x300 } : State).fetchWord = some (encode .ret) := by decide

/-- Both outcomes of each tested condition. -/
theorem witness_SkipResults : (regs [(1, 7), (2, 7)]).getV 1 = (regs [(1, 7), (2, 7)]).getV 2 ∧
    (regs [(1, 7), (2, 8)]).getV 1 ≠ (regs [(1, 7), (2, 8)]).getV 2 ∧ (regs [(1, 7)]).getV 1 = 7 ∧
    (regs [(1, 7)]).getV 1 ≠ 8 := by decide
theorem witness_FinishedStateStaysFinished : selfJumpState.finished ∧ selfJumpState.issued = [] :=
  ⟨⟨by decide, by decide, by decide⟩, by decide⟩

/-- A destination other than VF, for the five flag-setting instructions; and a machine of each configuration of the shifts. -/
theorem witness_AddRegistersResult : (14 : Reg) ≠ VF := by decide
theorem witness_SubtractResults : (0 : Reg) ≠ VF := by decide
theorem witness_ShiftResults : State.reset.shiftSource = .vx ∧ (1 : Reg) ≠ VF := by decide
theorem witness_ShiftResultsUnderVy : ({ State.reset with shiftSource := .vy } : State).shiftSource = .vy ∧
    (2 : Reg) ≠ VF := by decide
theorem witness_FlagIsWrittenLast : State.reset.shiftSource = .vx ∧
    ({ State.reset with shiftSource := .vy } : State).shiftSource = .vy := by decide

/-- A byte inside a mask. -/
theorem witness_RandomAndResult : ∀ b, (0xF0 : Byte).getLsbD b = false → (0xA0 : Byte).getLsbD b = false := by
  intro b
  by_cases hb : b < 8
  · interval_cases b <;> decide
  · intro _; exact BitVec.getLsbD_of_ge _ _ (by omega)

theorem witness_StoreBcdResult : ({ State.reset with I := 0xFFD } : State).memoryCanonical ∧
    ({ State.reset with I := 0xFFD } : State).I.toNat + 2 ≤ 0xFFF := ⟨rfl, by decide⟩
theorem witness_RegisterDumpResult : ({ State.reset with I := 0xFF0 } : State).memoryCanonical ∧
    ({ State.reset with I := 0xFF0 } : State).I.toNat + (15 : Reg).val ≤ 0xFFF := ⟨rfl, by decide⟩
theorem witness_RegisterLoadResult : ({ State.reset with I := 0xFFF } : State).I.toNat + (0 : Reg).val ≤ 0xFFF := by decide

/-- A dump, and a state with the memory it left but other registers. -/
theorem witness_DumpThenLoadRestores : ∃ t u : State,
    ({ regs [(0, 1), (1, 2)] with I := 0x400 } : State).memoryCanonical ∧
    exec (.ldMemVx 1) { regs [(0, 1), (1, 2)] with I := 0x400 } = .next t ∧
    u.mem = t.mem ∧ u.I = t.I ∧ u.getV 1 ≠ t.getV 1 :=
  ⟨_, { bytesAt State.reset 0x400 [1, 2] with I := 0x400 }, rfl, rfl, by decide, by decide, by decide⟩

/-- A dump over the next word (the end of its range at the end of the dump), and BCD digits over it. -/
theorem witness_StoresAreSeenByTheNextFetch :
    (∃ t, exec (.ldMemVx 15) { State.reset with I := 0x1F2 } = .next t) ∧ (14 : Reg) ≤ 15 ∧ (15 : Reg) ≤ 15 ∧
    ({ State.reset with I := 0x1F2 } : State).memoryCanonical ∧
    State.reset.pc.toNat = (0x1F2 : Word).toNat + (14 : Reg).val ∧
    State.reset.pc.toNat + 1 = (0x1F2 : Word).toNat + (15 : Reg).val ∧
    (∃ t, exec (.ldBVx 0) { State.reset with I := 0x200 } = .next t) ∧ State.reset.pc = (0x200 : Word) :=
  ⟨⟨_, rfl⟩, by decide, by decide, rfl, by decide, by decide, ⟨_, rfl⟩, by decide⟩

/-- Fifteen rows up to the last byte of memory; no row at all, wherever I points. -/
theorem witness_DrawInvertsPixelsUnderTheSprite :
    (15 ≤ 15 ∧ ({ State.reset with I := 0xFF1 } : State).I.toNat + 15 - 1 ≤ 0xFFF) ∧ (0 ≤ 15 ∧ (0 = 0)) := by decide

/-- Glyph 0 at (0, 0) of a blank display, then over itself. -/
theorem witness_DrawReportsCollision : spriteLit State.reset 0 0 5 0 0 ∧ State.reset.disp.pixel 0 0 = false ∧
    (State.reset.disp.xorByte 0 0 0xF0).pixel 0 0 = true :=
  ⟨⟨0, by decide, 0, by decide, by decide, by decide, by decide⟩, by decide, by decide⟩
theorem witness_DrawReturnsTheDisplay : State.reset.I.toNat + 5 - 1 ≤ 0xFFF := by decide
theorem witness_DrawFrame : (15 = 0 ∨ ({ State.reset with I := 0xFF1 } : State).I.toNat + 15 - 1 ≤ 0xFFF) ∧
    (0 = 0 ∨ ({ State.reset with I := 0xFFFF } : State).I.toNat + 0 - 1 ≤ 0xFFF) := by decide
theorem witness_DrawTwiceRestoresTheDisplay : ∃ t u, (1 : Reg) ≠ VF ∧ (2 : Reg) ≠ VF ∧
    exec (.drw 1 2 5) State.reset = .next t ∧ exec (.drw 1 2 5) t = .next u :=
  ⟨_, _, by decide, by decide, rfl, rfl⟩

/-- Key index 15, held and not held, and 16. -/
theorem witness_KeySkipResults : ((regs [(0, 0x0F)]).getV 0).toNat ≤ 0x0F ∧ ((regs [(0, 0x10)]).getV 0).toNat > 0x0F ∧
    (0x8000 : Word).getLsbD 15 = true ∧ (0x7FFF : Word).getLsbD 15 = false := by decide
theorem witness_WaitForKeyResult : State.reset.issued = [] := rfl
theorem witness_HostOperationResults : State.reset.run.isFaulted = false ∧ waitingState.run.isFaulted = false ∧
    waitingState.run = .awaitingKey 3 ∧ State.reset.run = .running ∧ faultedState.run.isFaulted = true := by decide

/-- Images of 3584 and of 3585 bytes. -/
theorem witness_NewChecksTheSize : (List.replicate 3584 (0xAB : Byte)).length ≤ 3584 ∧
    (List.replicate 3585 (0xAB : Byte)).length > 3584 := by
  rw [List.length_replicate, List.length_replicate]
  decide
theorem witness_NewInitialisesEverything : ∃ s, newBlock [0x12, 0x00] = .ok s := ⟨_, rfl⟩

/-- Both clauses of the size check are those of `witness_NewChecksTheSize`; two states with one count, one queue and one
configuration but other registers; `new` the oldest operation issued, on a faulted machine. -/
theorem witness_NewReplacesTheBlock : (List.replicate 3584 (0 : Byte)).length ≤ 3584 ∧
    (List.replicate 3585 (0 : Byte)).length > 3584 ∧
    ((regs [(1, 7)]).draws = State.reset.draws ∧ (regs [(1, 7)]).issued = State.reset.issued ∧
      (regs [(1, 7)]).shiftSource = State.reset.shiftSource ∧ (regs [(1, 7)]).getV 1 ≠ State.reset.getV 1) ∧
    ({ faultedState with issued := [.new (some [0x12]), .step] } : State).issued = [.new (some [0x12]), .step] := by
  rw [List.length_replicate, List.length_replicate]
  exact ⟨by decide, by decide, ⟨by decide, by decide, by decide, by decide⟩, rfl⟩
theorem witness_ResetRunsAnEmptyImage : ∃ s, newBlock [0x12] = .ok s := ⟨_, rfl⟩

/-- A store that changes memory, from a state with the invariants. -/
theorem witness_StepKeepsMemoryCanonical : ∃ t,
    State.memoryCanonical ((regs [(0, 234)]).withFetchWord 16 0xF033) ∧
    step ((regs [(0, 234)]).withFetchWord 16 0xF033) = .next t ∧ t.mem ≠ ((regs [(0, 234)]).withFetchWord 16 0xF033).mem :=
  ⟨_, rfl, rfl, by decide⟩
theorem witness_StepKeepsPcBounded : ∃ t, ((regs [(0, 0xFF)]).withFetchWord 16 0xBFFF).pcBounded ∧
    step ((regs [(0, 0xFF)]).withFetchWord 16 0xBFFF) = .next t ∧ t.pc.toNat = 0x10FE :=
  ⟨_, ⟨by decide, by decide⟩, rfl, by decide⟩
/-- A state that waits and one that has faulted, each as its step left it, and the next step of the first. -/
theorem witness_StepKeepsReportAgreeing : faultedState.reportAgrees ∧
    State.reportAgrees { waitingState with report := some (.ok .awaitKey), issued := [.deliverKey 3] } ∧
    ∃ t, step { waitingState with report := some (.ok .awaitKey), issued := [.deliverKey 3] } = .next t ∧ t.run = .running := by
  refine ⟨⟨fun _ h => (nomatch h), fun f h => ?_⟩, ⟨fun _ _ => rfl, fun _ h => (nomatch h)⟩, _, rfl, rfl⟩
  injection h with h; subst h; rfl
theorem witness_CanonicalMemoryIsItsReads :
    Memory.wf [(0x200, 0x12), (0xFFF, 1)] = true ∧ Memory.wf (Memory.writeBytes [] 0x200 [0x12, 0]) = true := by decide
theorem witness_WritersOfEachElement : ∃ t, exec (.addReg 1 2) State.reset = .next t ∧
    Instr.writesReg (.addReg 1 2) 3 = false ∧ Instr.writesPc (.addReg 1 2) = false ∧
    ownError (.addReg 1 2) State.reset = none := ⟨_, rfl, by decide, by decide, rfl⟩

/-- One instruction of each effect. -/
theorem witness_EffectOfEachInstruction : State.reset.run = .running ∧
    (∃ t, exec (.drw 0 0 1) State.reset = .next t ∧ t.run = .running) ∧
    (∃ t, exec (.ldVxK 0) State.reset = .next t ∧ t.run = .awaitingKey 0) ∧
    ∃ t, exec (.ldImm 0 1) State.reset = .next t ∧ t.run = .running := ⟨rfl, ⟨_, rfl, rfl⟩, ⟨_, rfl, rfl⟩, ⟨_, rfl, rfl⟩⟩
theorem witness_SoundTimerIsUnobservable : ∃ t, step { State.reset with issued := [.decrementTimers], ST := 7 } = .next t ∧
    t.ST = 6 := ⟨_, rfl, by decide⟩
theorem witness_OnlyKeySkipsReadTheKeypad : (∀ x, Instr.ldVxK 0 ≠ .skp x ∧ Instr.ldVxK 0 ≠ .sknp x) ∧
    ∃ t, exec (.ldVxK 0) State.reset = .next t := ⟨by simp, ⟨_, rfl⟩⟩

end Sys2Proof.Tests
end

section
/-! Frames of the shared updates, for every instruction's proof: from a state, by one update and the next, to the state an
instruction leaves. -/

namespace Sys2Proof.Machine

theorem Frame.trans {k : Touched} {s t u : State} (hst : Frame k s t) (htu : Frame k t u) : Frame k s u where
  regs r hr := (htu.regs r hr).trans (hst.regs r hr)
  index hk := (htu.index hk).trans (hst.index hk)
  slots j hj := (htu.slots j hj).trans (hst.slots j hj)
  sp hk := (htu.sp hk).trans (hst.sp hk)
  disp hk := (htu.disp hk).trans (hst.disp hk)
  delay hk := (htu.delay hk).trans (hst.delay hk)
  sound hk := (htu.sound hk).trans (hst.sound hk)
  keypad := htu.keypad.trans hst.keypad
  run hk := (htu.run hk).trans (hst.run hk)
  draws hk := (htu.draws hk).trans (hst.draws hk)
  bytes a ha := (htu.bytes a ha).trans (hst.bytes a ha)
  issued := htu.issued.trans hst.issued
  source := htu.source.trans hst.source

theorem Frame.refl (k : Touched) (s : State) : Frame k s s := by
  constructor <;> intros <;> rfl

theorem frame_reply (k : Touched) (s : State) (e : Effect) : Frame k s (s.reply e) := by
  constructor <;> intros <;> rfl

theorem frame_setV {k : Touched} {x : Reg} (hx : x ∈ k.regs) (s : State) (v : Byte) : Frame k s (s.setV x v) where
  __ := Frame.refl k s
  regs r hr := State.getV_setV_ne s x r v fun h => hr (h ▸ hx)

theorem frame_draws {k : Touched} (hk : k.draws = true) (s : State) (n : Nat) : Frame k s { s with draws := n } where
  __ := Frame.refl k s
  draws h := absurd (h.symm.trans hk) Bool.false_ne_true

end Sys2Proof.Machine
end

section
/-! The flag-setting instructions (42_alu.md R111, R118-R122): how each ends, said once for any destination, and the shifts
as numbers under either configuration (00_scope.md R6). -/

namespace Sys2Proof.Machine

/-- How every flag-setting instruction ends. With x = F the result is lost (R111), so V[x] is claimed for another x only. -/
theorem doneWithFlag_spec (x : Reg) (result flag : Byte) (s : State) :
    ∃ t, doneWithFlag x result flag s = .next t ∧ (x ≠ VF → t.getV x = result) ∧ t.getV VF = flag ∧
      t.pc = s.pc ∧ t.report = some (.ok .none) ∧ ∀ k : Touched, x ∈ k.regs → VF ∈ k.regs → Frame k s t :=
  ⟨_, doneWithFlag_eq s x result flag, getV_dest_flagged s x result flag, getV_VF_flagged s x result flag, rfl, rfl,
    fun k hx hf => ((frame_setV hx s result).trans (frame_setV hf _ flag)).trans (frame_reply k _ .none)⟩

theorem flagByte_decide (p : Prop) [Decidable p] : flagByte (decide p) = if p then 1 else 0 := by
  simp [flagByte]

theorem carryFlag_eq (a b : Byte) : carryFlag a b = if a.toNat + b.toNat > 255 then 1 else 0 := flagByte_decide _

theorem notBorrowFlag_eq (a b : Byte) : notBorrowFlag a b = if a.toNat > b.toNat then 1 else 0 := flagByte_decide _

theorem toNat_shrFlag (b : Byte) : (shrFlag b).toNat = b.toNat % 2 := by
  rw [shrFlag, BitVec.toNat_and]
  exact Nat.and_one_is_mod b.toNat

theorem toNat_shlFlag (b : Byte) : (shlFlag b).toNat = b.toNat / 128 := by
  rw [shlFlag, BitVec.toNat_ushiftRight, Nat.shiftRight_eq_div_pow]

theorem toNat_ushiftRight_one (b : Byte) : (b >>> 1).toNat = b.toNat / 2 := by
  rw [BitVec.toNat_ushiftRight, Nat.shiftRight_eq_div_pow]

theorem toNat_shiftLeft_one (b : Byte) : (b <<< 1).toNat = 2 * b.toNat % 256 := by
  rw [BitVec.toNat_shiftLeft, Nat.shiftLeft_eq, Nat.mul_comm]

@[simp] theorem shiftOperand_vx (x y : Reg) (s : State) : shiftOperand .vx x y s = s.getV x := rfl

@[simp] theorem shiftOperand_vy (x y : Reg) (s : State) : shiftOperand .vy x y s = s.getV y := rfl

/-- `SHR` (R121) as numbers, under the operand that the machine's configuration selects. -/
theorem exec_shr_spec (x y : Reg) (s : State) :
    ∃ t, exec (.shr x y) s = .next t ∧
      (x ≠ VF → (t.getV x).toNat = (shiftOperand s.shiftSource x y s).toNat / 2) ∧
      (t.getV VF).toNat = (shiftOperand s.shiftSource x y s).toNat % 2 ∧
      t.pc = s.pc ∧ t.report = some (.ok .none) ∧ ∀ k : Touched, x ∈ k.regs → VF ∈ k.regs → Frame k s t := by
  obtain ⟨t, hexec, hdest, hflag, hrest⟩ := doneWithFlag_spec x (shiftOperand s.shiftSource x y s >>> 1)
    (shrFlag (shiftOperand s.shiftSource x y s)) s
  refine ⟨t, hexec, fun hx => ?_, ?_, hrest⟩
  · rw [hdest hx, toNat_ushiftRight_one]
  · rw [hflag, toNat_shrFlag]

/-- `SHL` (R122) as numbers, under the operand that the machine's configuration selects. -/
theorem exec_shl_spec (x y : Reg) (s : State) :
    ∃ t, exec (.shl x y) s = .next t ∧
      (x ≠ VF → (t.getV x).toNat = 2 * (shiftOperand s.shiftSource x y s).toNat % 256) ∧
      (t.getV VF).toNat = (shiftOperand s.shiftSource x y s).toNat / 128 ∧
      t.pc = s.pc ∧ t.report = some (.ok .none) ∧ ∀ k : Touched, x ∈ k.regs → VF ∈ k.regs → Frame k s t := by
  obtain ⟨t, hexec, hdest, hflag, hrest⟩ := doneWithFlag_spec x (shiftOperand s.shiftSource x y s <<< 1)
    (shlFlag (shiftOperand s.shiftSource x y s)) s
  refine ⟨t, hexec, fun hx => ?_, ?_, hrest⟩
  · rw [hdest hx, toNat_shiftLeft_one]
  · rw [hflag, toNat_shlFlag]

/-- Settles O25: under `SHIFT_SOURCE = Vx` the operand is V[x], and an x other than F keeps the result. -/
theorem shiftResults : Obligations.ShiftResults := by
  intro x y s hsrc hx
  have hop : shiftOperand s.shiftSource x y s = s.getV x := by rw [hsrc, shiftOperand_vx]
  constructor
  · obtain ⟨t, hexec, hdest, hflag, hpc, hreport, hframe⟩ := exec_shr_spec x y s
    rw [hop] at hdest hflag
    exact ⟨t, hexec, hdest hx, hflag, hpc, hreport, hframe _ (by simp) (by simp)⟩
  · obtain ⟨t, hexec, hdest, hflag, hpc, hreport, hframe⟩ := exec_shl_spec x y s
    rw [hop] at hdest hflag
    exact ⟨t, hexec, hdest hx, hflag, hpc, hreport, hframe _ (by simp) (by simp)⟩

/-- Settles O26: under `SHIFT_SOURCE = Vy` the operand is V[y], for every x. -/
theorem shiftResultsUnderVy : Obligations.ShiftResultsUnderVy := by
  intro x y s hsrc
  have hop : shiftOperand s.shiftSource x y s = s.getV y := by rw [hsrc, shiftOperand_vy]
  constructor
  · obtain ⟨t, hexec, hdest, hflag, hpc, hreport, hframe⟩ := exec_shr_spec x y s
    rw [hop] at hdest hflag
    exact ⟨t, hexec, hdest, hflag, hpc, hreport, hframe _ (by simp) (by simp)⟩
  · obtain ⟨t, hexec, hdest, hflag, hpc, hreport, hframe⟩ := exec_shl_spec x y s
    rw [hop] at hdest hflag
    exact ⟨t, hexec, hdest, hflag, hpc, hreport, hframe _ (by simp) (by simp)⟩

/-- With x = F the write of the flag is the last, so the flag is all that a flag-setting instruction leaves (R111). -/
theorem doneWithFlag_VF (result flag : Byte) (s : State) :
    ∃ t, doneWithFlag VF result flag s = .next t ∧ Frame { regs := [VF] } s t ∧ t.pc = s.pc ∧
      t.report = some (.ok .none) ∧ t.getV VF = flag := by
  obtain ⟨t, hexec, -, hflag, hpc, hreport, hframe⟩ := doneWithFlag_spec VF result flag s
  exact ⟨t, hexec, hframe _ (by simp) (by simp), hpc, hreport, hflag⟩

/-- Settles O27: all five end by `doneWithFlag`, whose last write is the flag. -/
theorem flagIsWrittenLast : Obligations.FlagIsWrittenLast := by
  intro y s
  refine ⟨?add, ?sub, ?subn, ?shr, ?shl⟩
  case add =>
    rw [← carryFlag_eq]
    exact doneWithFlag_VF _ _ s
  case sub =>
    rw [← notBorrowFlag_eq]
    exact doneWithFlag_VF _ _ s
  case subn =>
    rw [← notBorrowFlag_eq]
    exact doneWithFlag_VF _ _ s
  case shr =>
    obtain ⟨t, hexec, -, hflag, hpc, hreport, hframe⟩ := exec_shr_spec VF y s
    refine ⟨t, hexec, hframe _ (by simp) (by simp), hpc, hreport, fun hsrc => ?_, fun hsrc => ?_⟩
    · rw [hflag, hsrc, shiftOperand_vx]
    · rw [hflag, hsrc, shiftOperand_vy]
  case shl =>
    obtain ⟨t, hexec, -, hflag, hpc, hreport, hframe⟩ := exec_shl_spec VF y s
    refine ⟨t, hexec, hframe _ (by simp) (by simp), hpc, hreport, fun hsrc => ?_, fun hsrc => ?_⟩
    · rw [hflag, hsrc, shiftOperand_vx]
    · rw [hflag, hsrc, shiftOperand_vy]

end Sys2Proof.Machine
end

section
/-! The random byte (42_alu.md R123): what a draw leaves, whatever byte is drawn (00_scope.md R7). -/

namespace Sys2Proof.Machine

theorem randomAnd_spec (r : Byte) (x : Reg) (kk : Byte) (s : State) :
    ∃ t, randomAnd r x kk s = .next t ∧ t.getV x = r &&& kk ∧ t.draws = s.draws + 1 ∧ t.pc = s.pc ∧
      t.report = some (.ok .none) ∧ Frame { regs := [x], draws := true } s t :=
  ⟨_, done_eq _, State.getV_setV_same _ x _, rfl, rfl, rfl,
    ((frame_draws rfl s _).trans (frame_setV (by simp) _ _)).trans (frame_reply _ _ _)⟩

theorem getLsbD_and_mask_outside (r : Byte) {kk : Byte} {b : Nat} (hb : kk.getLsbD b = false) :
    (r &&& kk).getLsbD b = false := by
  rw [BitVec.getLsbD_and, hb, Bool.and_false]

theorem and_mask_eq_self {v kk : Byte} (h : ∀ b, kk.getLsbD b = false → v.getLsbD b = false) : v &&& kk = v := by
  apply BitVec.eq_of_getLsbD_eq
  intro b _
  rw [BitVec.getLsbD_and]
  cases hb : kk.getLsbD b with
  | true => rw [Bool.and_true]
  | false => rw [Bool.and_false, h b hb]

/-- Settles O28: the first part holds of every drawn byte, so of the model's; a byte inside the mask results from drawing
that byte itself. -/
theorem randomAndResult : Obligations.RandomAndResult := by
  intro x kk s
  constructor
  · obtain ⟨t, hexec, hval, hrest⟩ := randomAnd_spec (Config.randomByte s.draws) x kk s
    exact ⟨t, hexec, hval, fun b hb => hval ▸ getLsbD_and_mask_outside _ hb, hrest⟩
  · intro v hv
    obtain ⟨t, hexec, hval, -⟩ := randomAnd_spec v x kk s
    exact ⟨v, t, hexec, hval.trans (and_mask_eq_self hv)⟩

end Sys2Proof.Machine
end

section
/-! What each operation that checks something before it acts can answer: the fault of its check, or what it does. -/

namespace Sys2Proof.Machine

theorem checkRange_cases {i : Instr} {addr : Word} {n : Nat} {s t : State} {body : State → Answer}
    (h : checkRange i addr n s body = .next t) :
    (outOfRange addr n = true ∧ t = s.raise (.addressOutOfRange addr) (s.pc - 2) (some (encode i))) ∨
    (outOfRange addr n = false ∧ body s = .next t) := by
  cases hr : outOfRange addr n with
  | true =>
    rw [checkRange_fail s i body hr, raiseIn_eq] at h
    exact Or.inl ⟨rfl, (Host.Outcome.next.inj h).symm⟩
  | false =>
    rw [checkRange_pass s i body hr] at h
    exact Or.inr ⟨rfl, h⟩

theorem skipOnKey_cases {i : Instr} {x : Reg} {cond : Bool → Bool} {s t : State}
    (h : skipOnKey i x cond s = .next t) :
    ((s.getV x).toNat > 0x0F ∧ t = s.raise (.keyOutOfRange (s.getV x)) (s.pc - 2) (some (encode i))) ∨
    ((s.getV x).toNat ≤ 0x0F ∧ ∃ c, t = (s.skipIf c).reply .none) := by
  by_cases hk : (s.getV x).toNat > 0x0F
  · rw [skipOnKey_illegal s i x cond hk, raiseIn_eq] at h
    exact Or.inl ⟨hk, (Host.Outcome.next.inj h).symm⟩
  · rw [skipOnKey_legal s i x cond (Nat.not_lt.1 hk)] at h
    exact Or.inr ⟨Nat.not_lt.1 hk, _, (Host.Outcome.next.inj h).symm⟩

theorem callTo_cases {i : Instr} {target : Word} {s t : State} (h : callTo i target s = .next t) :
    (s.SP.val = 16 ∧ t = s.raise .stackOverflow (s.pc - 2) (some (encode i))) ∨
    (∃ (hroom : s.SP.val < 16) (sp : Fin 17),
      t = ({ s with stack := s.stack.set s.SP.val s.pc, SP := sp }.jump target).reply .none) := by
  by_cases hroom : s.SP.val < 16
  · rw [callTo_room s i target hroom] at h
    exact Or.inr ⟨hroom, _, (Host.Outcome.next.inj h).symm⟩
  · have hfull : s.SP.val = 16 := by omega
    rw [callTo_full s i target hfull, raiseIn_eq] at h
    exact Or.inl ⟨hfull, (Host.Outcome.next.inj h).symm⟩

theorem returnFrom_cases {i : Instr} {s t : State} (h : returnFrom i s = .next t) :
    (s.SP.val = 0 ∧ t = s.raise .stackUnderflow (s.pc - 2) (some (encode i))) ∨
    (∃ (j : Fin 16) (sp : Fin 17), 0 < s.SP.val ∧ t = ({ s with SP := sp }.jump s.stack[j]).reply .none) := by
  by_cases hsome : 0 < s.SP.val
  · rw [returnFrom_some s i hsome] at h
    exact Or.inr ⟨⟨s.SP.val - 1, by omega⟩, _, hsome, (Host.Outcome.next.inj h).symm⟩
  · have hempty : s.SP.val = 0 := by omega
    rw [returnFrom_empty s i hempty, raiseIn_eq] at h
    exact Or.inl ⟨hempty, (Host.Outcome.next.inj h).symm⟩

end Sys2Proof.Machine
end

section
/-! Which elements an instruction writes (10_state.md R21-R32): one rule per update, then one line per instruction. -/

namespace Sys2Proof.Machine

/-- From s to t nothing changed but what instruction i is named for as a writer, element by element. -/
structure OnlyWrites (i : Instr) (s t : State) : Prop where
  regs : ∀ r, Instr.writesReg i r = false → t.getV r = s.getV r
  pc : Instr.writesPc i = false → t.pc = s.pc
  mem : (∀ x, i ≠ .ldBVx x ∧ i ≠ .ldMemVx x) → t.mem = s.mem
  index : (∀ nnn x, i ≠ .ldI nnn ∧ i ≠ .addIVx x ∧ i ≠ .ldFVx x) → t.I = s.I
  stack : (∀ nnn, i ≠ .call nnn) → t.stack = s.stack
  sp : (∀ nnn, i ≠ .call nnn ∧ i ≠ .ret) → t.SP = s.SP
  disp : (∀ x y n, i ≠ .cls ∧ i ≠ .drw x y n) → t.disp = s.disp
  delay : (∀ x, i ≠ .ldDTVx x) → t.DT = s.DT
  sound : (∀ x, i ≠ .ldSTVx x) → t.ST = s.ST
  draws : (∀ x kk, i ≠ .rnd x kk) → t.draws = s.draws
  run : (∀ x, i ≠ .ldVxK x) → ownError i s = none → t.run = s.run
  keypad : t.keypad = s.keypad
  issued : t.issued = s.issued
  source : t.shiftSource = s.shiftSource

namespace OnlyWrites

variable {i : Instr} {s t : State}

theorem refl (i : Instr) (s : State) : OnlyWrites i s s := by
  constructor <;> intros <;> rfl

theorem reply (h : OnlyWrites i s t) (e : Effect) : OnlyWrites i s (t.reply e) := { h with }

/-- Fault entry writes the run state alone (R163), which an instruction does where its own check fails. -/
theorem raise (hown : ownError i s ≠ none) (e : ExecutionError) (fpc : Word) (op : Option Word) :
    OnlyWrites i s (s.raise e fpc op) :=
  { refl i s with run := fun _ hnone => absurd hnone hown }

theorem setV {x : Reg} (hx : Instr.writesReg i x = true) (h : OnlyWrites i s t) (v : Byte) : OnlyWrites i s (t.setV x v) :=
  { h with
    regs := fun r hr => by
      have hne : r ≠ x := fun e => Bool.false_ne_true (hr.symm.trans (e ▸ hx))
      rw [State.getV_setV_ne _ _ _ _ hne, h.regs r hr] }

theorem jump (hi : Instr.writesPc i = true) (h : OnlyWrites i s t) (target : Word) : OnlyWrites i s (t.jump target) :=
  { h with pc := fun hpc => absurd (hpc.symm.trans hi) Bool.false_ne_true }

theorem skipIf (hi : Instr.writesPc i = true) (h : OnlyWrites i s t) (c : Bool) : OnlyWrites i s (t.skipIf c) := by
  cases c with
  | false => exact h
  | true => exact h.jump hi (t.pc + 2)

/-- For `CLS` and `DRW`. The display is a variable here, so that no blit is unfolded to see that the rest is kept. -/
theorem withDisp (hi : ¬ ∀ x y n, i ≠ .cls ∧ i ≠ .drw x y n) (s : State) (d : Display) :
    OnlyWrites i s { s with disp := d } :=
  { refl i s with disp := fun hall => absurd hall hi }

theorem withV {v : Vector Byte 16} (hv : ∀ r : Reg, Instr.writesReg i r = false → v[r] = s.V[r]) :
    OnlyWrites i s { s with V := v } :=
  { refl i s with regs := hv }

/-- From an answer that leaves u to the state the answer is known to leave. -/
theorem of_next {u : State} (h : (.next u : Answer) = .next t) (hu : OnlyWrites i s u) : OnlyWrites i s t :=
  Host.Outcome.next.inj h ▸ hu

theorem of_done_setV {x : Reg} {v : Byte} (hx : Instr.writesReg i x = true) (h : done (s.setV x v) = .next t) :
    OnlyWrites i s t :=
  of_next h (((refl i s).setV hx v).reply .none)

theorem of_doneWithFlag {x : Reg} {v f : Byte} (hx : Instr.writesReg i x = true) (hf : Instr.writesReg i VF = true)
    (h : doneWithFlag x v f s = .next t) : OnlyWrites i s t :=
  of_next h ((((refl i s).setV hx v).setV hf f).reply .none)

theorem of_done_jump {target : Word} (hi : Instr.writesPc i = true) (h : done (s.jump target) = .next t) :
    OnlyWrites i s t :=
  of_next h (((refl i s).jump hi target).reply .none)

theorem of_done_skipIf {c : Bool} (hi : Instr.writesPc i = true) (h : done (s.skipIf c) = .next t) :
    OnlyWrites i s t :=
  of_next h (((refl i s).skipIf hi c).reply .none)

theorem of_skipOnKey {x : Reg} {cond : Bool → Bool} (hi : Instr.writesPc i = true)
    (hown : (s.getV x).toNat > 0x0F → ownError i s ≠ none) (h : skipOnKey i x cond s = .next t) : OnlyWrites i s t := by
  obtain ⟨hk, rfl⟩ | ⟨-, c, rfl⟩ := skipOnKey_cases h
  · exact raise (hown hk) _ _ _
  · exact ((refl i s).skipIf hi c).reply .none

theorem of_checkRange {addr : Word} {n : Nat} {body : State → Answer}
    (h : checkRange i addr n s body = .next t) (hown : outOfRange addr n = true → ownError i s ≠ none)
    (hbody : body s = .next t → OnlyWrites i s t) : OnlyWrites i s t := by
  obtain ⟨hr, rfl⟩ | ⟨-, h⟩ := checkRange_cases h
  · exact raise (hown hr) _ _ _
  · exact hbody h

end OnlyWrites

/-- The range check of an instruction that touches n + 1 bytes from I upward is the one `ownError` names. -/
theorem outOfRange_succ_eq_true {addr : Word} {n : Nat} :
    outOfRange addr (n + 1) = true ↔ addr.toNat + n > 0xFFF := by
  rw [outOfRange_eq_true]
  omega

open OnlyWrites in
/-- Every instruction writes only the elements it is named for. -/
theorem exec_onlyWrites {i : Instr} {s t : State} (h : exec i s = .next t) : OnlyWrites i s t := by
  cases i with
  | cls => exact of_next h ((withDisp (fun hi => (hi 0 0 0).1 rfl) s _).reply _)
  | ret =>
    obtain ⟨hsp, rfl⟩ | ⟨j, sp, -, rfl⟩ := returnFrom_cases h
    · exact raise (by simp [ownError, Fin.ext_iff, hsp]) _ _ _
    · have hpop : OnlyWrites .ret s { s with SP := sp } := { refl _ s with sp := fun hi => absurd rfl (hi 0).2 }
      exact (hpop.jump rfl _).reply .none
  | call nnn =>
    obtain ⟨hsp, rfl⟩ | ⟨hroom, sp, rfl⟩ := callTo_cases h
    · exact raise (by simp [ownError, Fin.ext_iff, hsp]) _ _ _
    · have hpush : OnlyWrites (.call nnn) s { s with stack := s.stack.set s.SP.val s.pc, SP := sp } :=
        { refl _ s with stack := fun hi => absurd rfl (hi nnn), sp := fun hi => absurd rfl (hi nnn).1 }
      exact (hpush.jump rfl _).reply .none
  | jp _ | jpV0 _ => exact of_done_jump rfl h
  | seImm _ _ | sneImm _ _ | seReg _ _ | sneReg _ _ => exact of_done_skipIf rfl h
  | skp x =>
    rw [exec, execSkp] at h
    exact of_skipOnKey rfl (fun hk => by simp [ownError, hk]) h
  | sknp x =>
    rw [exec, execSknp] at h
    exact of_skipOnKey rfl (fun hk => by simp [ownError, hk]) h
  | ldImm _ _ | addImm _ _ | ldReg _ _ | orReg _ _ | andReg _ _ | xorReg _ _ | ldVxDT _ =>
    exact of_done_setV (by simp [Instr.writesReg]) h
  | addReg _ _ | subReg _ _ | subnReg _ _ | shr _ _ | shl _ _ =>
    exact of_doneWithFlag (by simp [Instr.writesReg]) (by simp [Instr.writesReg]) h
  | rnd x kk =>
    have hdraw : OnlyWrites (.rnd x kk) s { s with draws := s.draws + 1 } :=
      { refl _ s with draws := fun hi => absurd rfl (hi x kk) }
    exact of_next h ((hdraw.setV (by simp [Instr.writesReg]) _).reply .none)
  | ldI nnn => exact of_next h { refl _ s with index := fun hi => absurd rfl (hi nnn 0).1 }
  | addIVx x => exact of_next h { refl _ s with index := fun hi => absurd rfl (hi 0 x).2.1 }
  | ldFVx x => exact of_next h { refl _ s with index := fun hi => absurd rfl (hi 0 x).2.2 }
  | ldDTVx x => exact of_next h { refl _ s with delay := fun hi => absurd rfl (hi x) }
  | ldSTVx x => exact of_next h { refl _ s with sound := fun hi => absurd rfl (hi x) }
  | ldVxK x => exact of_next h { refl _ s with run := fun hi => absurd rfl (hi x) }
  | ldBVx x =>
    rw [exec, execLdBVx] at h
    exact of_checkRange h (fun hr => by simp [ownError, outOfRange_succ_eq_true.1 hr])
      (fun hb => of_next hb { refl _ s with mem := fun hi => absurd rfl (hi x).1 })
  | ldMemVx x =>
    rw [exec, execLdMemVx] at h
    exact of_checkRange h (fun hr => by simp [ownError, outOfRange_succ_eq_true.1 hr])
      (fun hb => of_next hb { refl _ s with mem := fun hi => absurd rfl (hi x).2 })
  | ldVxMem x =>
    rw [exec, execLdVxMem] at h
    have hload : OnlyWrites (.ldVxMem x) s (s.loadRegs s.I x) :=
      withV fun r hr => (State.getV_loadRegs s s.I x r).trans (if_neg (by simpa [Instr.writesReg] using hr))
    exact of_checkRange h (fun hr => by simp [ownError, outOfRange_succ_eq_true.1 hr])
      (fun hb => of_next hb (hload.reply .none))
  | drw x y n =>
    rw [exec, execDrw] at h
    refine of_checkRange h (fun hr => ?_) (fun hb => ?_)
    · rw [ownError, if_pos (outOfRange_eq_true.1 hr)]
      exact Option.some_ne_none _
    · exact of_next hb (((withDisp (fun hi => (hi x y n).2 rfl) s _).setV rfl _).reply _)

/-- Settles O53: an instruction leaves every element that it is not named for. -/
theorem writersOfEachElement : Obligations.WritersOfEachElement := by
  intro i s t h
  obtain ⟨regs, pc, mem, index, stack, sp, disp, delay, sound, draws, run, keypad, issued, source⟩ := exec_onlyWrites h
  exact ⟨regs, pc, mem, index, stack, sp, disp, delay, sound, draws, run, keypad, issued, source⟩

end Sys2Proof.Machine
end

section
/-! pc and the return addresses (10_state.md R24): what each kind of move leaves them, and the bound that every step keeps. -/

namespace Sys2Proof.Machine

/-! ### The host's operations on pc and the call stack -/

@[simp] theorem State.decrementTimers_pc (s : State) : s.decrementTimers.pc = s.pc := by
  unfold State.decrementTimers; split <;> rfl
@[simp] theorem State.decrementTimers_stack (s : State) : s.decrementTimers.stack = s.stack := by
  unfold State.decrementTimers; split <;> rfl
@[simp] theorem State.setKeypad_pc (s : State) (m : Word) : (s.setKeypad m).pc = s.pc := by
  unfold State.setKeypad; split <;> rfl
@[simp] theorem State.setKeypad_stack (s : State) (m : Word) : (s.setKeypad m).stack = s.stack := by
  unfold State.setKeypad; split <;> rfl
@[simp] theorem State.deliverKey_pc (s : State) (v : Byte) : (s.deliverKey v).pc = s.pc := by
  unfold State.deliverKey; split <;> rfl
@[simp] theorem State.deliverKey_stack (s : State) (v : Byte) : (s.deliverKey v).stack = s.stack := by
  unfold State.deliverKey; split <;> rfl

/-- A load that succeeds leaves reset but for memory (70_reset_and_hazards.md R180). -/
theorem loadFile_ok {file : Option (List Byte)} {b : State} (h : loadFile file = .ok b) :
    ∃ m, b = { State.reset with mem := m } := by
  rcases file with _ | p
  · cases h
  · by_cases hp : p.length ≤ Config.maxProgramLen
    · rw [loadFile, newBlock_ok p hp] at h
      exact ⟨_, (Except.ok.inj h).symm⟩
    · rw [loadFile, newBlock_error p (Nat.not_le.1 hp)] at h
      cases h

/-! ### The bound -/

/-- The bound reads pc and the call stack only. -/
theorem State.pcBounded_congr {s t : State} (hpc : t.pc = s.pc) (hstack : t.stack = s.stack) (h : s.pcBounded) :
    t.pcBounded := by
  rw [State.pcBounded, hpc, hstack]
  exact h

theorem State.reset_pcBounded : State.reset.pcBounded := ⟨by decide, by decide⟩

/-- The bound that a successful fetch leaves for the instruction: pc is at most 0x1000, and so is every return address. -/
def State.fetchBounded (s : State) : Prop := s.pc.toNat ≤ 0x1000 ∧ ∀ j : Fin 16, s.stack[j].toNat ≤ 0x1000

theorem State.fetchBounded.pcBounded {s : State} (h : s.fetchBounded) : s.pcBounded := ⟨h.1.trans (by decide), h.2⟩

theorem State.fetchBounded_advance {s : State} {op : Word} (hb : s.pcBounded) (hf : s.fetchWord = some op) :
    s.advance.fetchBounded := by
  have hpc : ¬ s.pc.toNat > 0xFFE := fun hgt => by
    rw [(fetchWord_eq_none_iff s).2 hgt] at hf
    cases hf
  refine ⟨?_, hb.2⟩
  rw [State.advance_pc]
  bv_omega

theorem State.pcBounded_jump {s : State} {target : Word} (ht : target.toNat ≤ 0x10FE)
    (hstack : ∀ j : Fin 16, s.stack[j].toNat ≤ 0x1000) (e : Effect) : ((s.jump target).reply e).pcBounded :=
  ⟨ht, hstack⟩

theorem State.fetchBounded.skipIf {s : State} (h : s.fetchBounded) (c : Bool) : (s.skipIf c).pcBounded := by
  obtain ⟨hpc, hstack⟩ := h
  cases c with
  | false => exact ⟨hpc.trans (by decide), hstack⟩
  | true =>
    refine ⟨?_, hstack⟩
    rw [State.skipIf_pc, if_pos rfl]
    bv_omega

/-- A push of pc keeps every return address bounded. -/
theorem State.fetchBounded.push {s : State} (h : s.fetchBounded) {k : Nat} (hk : k < 16) (j : Fin 16) :
    (s.stack.set k s.pc)[j].toNat ≤ 0x1000 := by
  rw [Fin.getElem_fin, Vector.getElem_set]
  split
  · exact h.1
  · exact h.2 j

theorem skipOnKey_pcBounded {i : Instr} {x : Reg} {cond : Bool → Bool} {s t : State} (hb : s.fetchBounded)
    (h : skipOnKey i x cond s = .next t) : t.pcBounded := by
  obtain ⟨-, rfl⟩ | ⟨-, c, rfl⟩ := skipOnKey_cases h
  · exact hb.pcBounded
  · exact hb.skipIf c

theorem done_skipIf_pcBounded {c : Bool} {s t : State} (hb : s.fetchBounded) (h : done (s.skipIf c) = .next t) :
    t.pcBounded :=
  Host.Outcome.next.inj h ▸ hb.skipIf c

/-- Each transfer of control stays inside the bound; every other instruction writes neither pc nor the call stack. -/
theorem exec_pcBounded {i : Instr} {s t : State} (hb : s.fetchBounded) (h : exec i s = .next t) : t.pcBounded := by
  have hw : OnlyWrites i s t := exec_onlyWrites h
  cases i with
  | jp nnn =>
    obtain rfl := Host.Outcome.next.inj h
    refine State.pcBounded_jump ?_ hb.2 _
    rw [toNat_zextImm]
    omega
  | jpV0 nnn =>
    obtain rfl := Host.Outcome.next.inj h
    refine State.pcBounded_jump ?_ hb.2 _
    rw [BitVec.toNat_add, toNat_zextImm, toNat_zextByte]
    omega
  | call nnn =>
    obtain ⟨-, rfl⟩ | ⟨hroom, sp, rfl⟩ := callTo_cases h
    · exact hb.pcBounded
    · refine State.pcBounded_jump ?_ (hb.push hroom) _
      rw [toNat_zextImm]
      omega
  | ret =>
    obtain ⟨-, rfl⟩ | ⟨j, sp, -, rfl⟩ := returnFrom_cases h
    · exact hb.pcBounded
    · exact State.pcBounded_jump ((hb.2 j).trans (by decide)) hb.2 .none
  | seImm _ _ | sneImm _ _ | seReg _ _ | sneReg _ _ => exact done_skipIf_pcBounded hb h
  | skp x =>
    rw [exec, execSkp] at h
    exact skipOnKey_pcBounded hb h
  | sknp x =>
    rw [exec, execSknp] at h
    exact skipOnKey_pcBounded hb h
  | _ => exact State.pcBounded_congr (hw.pc rfl) (hw.stack (by simp)) hb.pcBounded

theorem engineStep_pcBounded {s t : State} (hb : s.pcBounded) (h : engineStep s = .next t) : t.pcBounded := by
  obtain ⟨-, -, he⟩ | ⟨op, e, -, hf, -, he⟩ | ⟨op, i, -, hf, -, he⟩ | ⟨r, -, he⟩ | ⟨f, -, he⟩ := engineStep_cases s
  · exact Host.Outcome.next.inj (he.symm.trans h) ▸ hb
  · exact Host.Outcome.next.inj (he.symm.trans h) ▸ (State.fetchBounded_advance hb hf).pcBounded
  · exact exec_pcBounded (State.fetchBounded_advance hb hf) (he.symm.trans h)
  · exact Host.Outcome.next.inj (he.symm.trans h) ▸ hb
  · exact Host.Outcome.next.inj (he.symm.trans h) ▸ hb

theorem reload_pcBounded {file : Option (List Byte)} {s t : State} (h : reload file s = .next t) : t.pcBounded := by
  rcases hl : loadFile file with e | b
  · rw [reload_error hl] at h
    cases h
  · obtain ⟨m, rfl⟩ := loadFile_ok hl
    rw [reload_ok hl] at h
    exact Host.Outcome.next.inj h ▸ State.reset_pcBounded

theorem applyOp_pcBounded {op : HostOp} {s t : State} (hb : s.pcBounded) (h : applyOp op s = .next t) :
    t.pcBounded := by
  cases op with
  | step => exact engineStep_pcBounded hb h
  | decrementTimers =>
    exact Host.Outcome.next.inj h ▸ State.pcBounded_congr s.decrementTimers_pc s.decrementTimers_stack hb
  | setKeypad m => exact Host.Outcome.next.inj h ▸ State.pcBounded_congr (s.setKeypad_pc m) (s.setKeypad_stack m) hb
  | deliverKey v => exact Host.Outcome.next.inj h ▸ State.pcBounded_congr (s.deliverKey_pc v) (s.deliverKey_stack v) hb
  | new file => exact reload_pcBounded h

/-- Settles O51: the bound on the return addresses makes the one on pc inductive through `RET`. -/
theorem stepKeepsPcBounded : Obligations.StepKeepsPcBounded := by
  intro s t hb h
  obtain ⟨-, -, he⟩ | ⟨-, -, he⟩ | ⟨op, rest, -, -, he⟩ | ⟨op, rest, -, -, he⟩ := step_cases s
  · exact engineStep_pcBounded hb (he.symm.trans h)
  · exact Host.Outcome.next.inj (he.symm.trans h) ▸ hb
  · exact applyOp_pcBounded (s := { s with issued := rest }) hb (he.symm.trans h)
  · exact nomatch he.symm.trans h

/-- Settles O49: reset lists no memory cell, has pc = 0x200 and zeros on the stack, and neither waits nor has faulted. -/
theorem resetMeetsTheInvariants : Obligations.ResetMeetsTheInvariants :=
  ⟨State.reset_mem_wf, State.reset_pcBounded, (fun _ hwait => nomatch hwait), (fun _ hfault => nomatch hfault)⟩

end Sys2Proof.Machine
end

section
/-! Two elements that almost no instruction reads: ST, which none does (10_state.md R30), and the keypad mask, which `SKP` and
`SKNP` alone do (R31). A state that differs in them alone is carried through each instruction. -/

namespace Sys2Proof.Machine

/-- s with another sound timer and other keys held. -/
def State.withSoundAndKeys (s : State) (a : Byte) (m : Word) : State := { s with ST := a, keypad := m }

/-- The answer with g applied to the state it leaves, where it leaves one. -/
def mapNext (g : State → State) : Answer → Answer
  | .next t => .next (g t)
  | .fault r => .fault r
  | .refused r => .refused r

section
variable (s : State) (a : Byte) (m : Word)

theorem done_skipIf_withSoundAndKeys (c : Bool) :
    done ((s.withSoundAndKeys a m).skipIf c) = mapNext (·.withSoundAndKeys a m) (done (s.skipIf c)) := by
  cases c <;> rfl

theorem callTo_withSoundAndKeys (i : Instr) (target : Word) :
    callTo i target (s.withSoundAndKeys a m) = mapNext (·.withSoundAndKeys a m) (callTo i target s) := by
  by_cases h : s.SP.val < 16
  · rw [callTo_room s i target h, callTo_room (s.withSoundAndKeys a m) i target h]
    rfl
  · have hfull : s.SP.val = 16 := by omega
    rw [callTo_full s i target hfull, callTo_full (s.withSoundAndKeys a m) i target hfull]
    rfl

theorem returnFrom_withSoundAndKeys (i : Instr) :
    returnFrom i (s.withSoundAndKeys a m) = mapNext (·.withSoundAndKeys a m) (returnFrom i s) := by
  by_cases h : 0 < s.SP.val
  · rw [returnFrom_some s i h, returnFrom_some (s.withSoundAndKeys a m) i h]
    rfl
  · have hempty : s.SP.val = 0 := by omega
    rw [returnFrom_empty s i hempty, returnFrom_empty (s.withSoundAndKeys a m) i hempty]
    rfl

theorem checkRange_withSoundAndKeys (i : Instr) (addr : Word) (n : Nat) {body : State → Answer}
    (hbody : body (s.withSoundAndKeys a m) = mapNext (·.withSoundAndKeys a m) (body s)) :
    checkRange i addr n (s.withSoundAndKeys a m) body =
      mapNext (·.withSoundAndKeys a m) (checkRange i addr n s body) := by
  cases hr : outOfRange addr n with
  | true =>
    rw [checkRange_fail _ i body hr, checkRange_fail _ i body hr]
    rfl
  | false => rw [checkRange_pass _ i body hr, checkRange_pass _ i body hr, hbody]

/-- A key skip reads the mask, so it is carried through with the mask as it is. -/
theorem skipOnKey_withSound (i : Instr) (x : Reg) (cond : Bool → Bool) :
    skipOnKey i x cond (s.withSoundAndKeys a s.keypad) =
      mapNext (·.withSoundAndKeys a s.keypad) (skipOnKey i x cond s) := by
  by_cases hk : (s.getV x).toNat > 0x0F
  · rw [skipOnKey_illegal s i x cond hk, skipOnKey_illegal (s.withSoundAndKeys a s.keypad) i x cond hk]
    rfl
  · rw [skipOnKey_legal s i x cond (Nat.not_lt.1 hk),
      skipOnKey_legal (s.withSoundAndKeys a s.keypad) i x cond (Nat.not_lt.1 hk)]
    exact done_skipIf_withSoundAndKeys s a s.keypad _

end

/-- Every instruction that does not write ST does the same whatever ST is, and whatever keys are held unless it is a key
skip. -/
theorem exec_withSoundAndKeys {i : Instr} {s : State} {m : Word} (a : Byte) (hsound : ∀ x, i ≠ .ldSTVx x)
    (hkeys : (∀ x, i ≠ .skp x ∧ i ≠ .sknp x) ∨ m = s.keypad) :
    exec i (s.withSoundAndKeys a m) = mapNext (·.withSoundAndKeys a m) (exec i s) := by
  cases i with
  | ldSTVx x => exact absurd rfl (hsound x)
  | skp x =>
    obtain hno | rfl := hkeys
    · exact absurd rfl (hno x).1
    · exact skipOnKey_withSound s a (.skp x) x fun held => held
  | sknp x =>
    obtain hno | rfl := hkeys
    · exact absurd rfl (hno x).2
    · exact skipOnKey_withSound s a (.sknp x) x fun held => !held
  | seImm _ _ | sneImm _ _ | seReg _ _ | sneReg _ _ => exact done_skipIf_withSoundAndKeys s a m _
  | call nnn => exact callTo_withSoundAndKeys s a m _ _
  | ret => exact returnFrom_withSoundAndKeys s a m _
  | drw _ _ _ | ldBVx _ | ldMemVx _ | ldVxMem _ =>
    simp only [exec, execDrw, execLdBVx, execLdMemVx, execLdVxMem]
    exact checkRange_withSoundAndKeys s a m _ _ _ rfl
  | _ => rfl

/-- Settles O56: `LD ST, Vx` apart, this is the general fact with ST as it is, which the instruction keeps. -/
theorem onlyKeySkipsReadTheKeypad : Obligations.OnlyKeySkipsReadTheKeypad := by
  intro i s t m hkeys h
  by_cases hsound : ∀ x, i ≠ .ldSTVx x
  · have hcarried := exec_withSoundAndKeys s.ST hsound (s := s) (m := m) (Or.inl hkeys)
    have hkept : t.ST = s.ST := (exec_onlyWrites h).sound hsound
    rw [h, ← hkept] at hcarried
    exact hkept ▸ hcarried
  · push Not at hsound
    obtain ⟨x, rfl⟩ := hsound
    obtain rfl := Host.Outcome.next.inj h
    rfl

/-! ### ST through a whole step -/

/-- Where the answer A leaves a state, B leaves one that differs from it in ST at most. -/
def SameButSound (A B : Answer) : Prop := ∀ t, A = .next t → ∃ t', B = .next t' ∧ { t' with ST := t.ST } = t

theorem SameButSound.next {s t : State} (h : { t with ST := s.ST } = s) : SameButSound (.next s) (.next t) := by
  intro u hu
  obtain rfl := Host.Outcome.next.inj hu
  exact ⟨t, rfl, h⟩

theorem exec_sameButSound (i : Instr) (s : State) (a : Byte) : SameButSound (exec i s) (exec i { s with ST := a }) := by
  intro t h
  by_cases hsound : ∀ x, i ≠ .ldSTVx x
  · have hkept : t.keypad = s.keypad := (exec_onlyWrites h).keypad
    have hcarried := exec_withSoundAndKeys a hsound (s := s) (Or.inr rfl)
    rw [h] at hcarried
    refine ⟨_, hcarried, ?_⟩
    rw [← hkept]
    rfl
  · push Not at hsound
    obtain ⟨x, rfl⟩ := hsound
    exact SameButSound.next rfl t h

theorem engineStep_sameButSound (s : State) (a : Byte) :
    SameButSound (engineStep s) (engineStep { s with ST := a }) := by
  obtain ⟨hr, hf, h⟩ | ⟨op, e, hr, hf, hd, h⟩ | ⟨op, i, hr, hf, hd, h⟩ | ⟨r, hr, h⟩ | ⟨f, hr, h⟩ := engineStep_cases s
  · rw [h, engineStep_no_fetch (s := { s with ST := a }) hr hf]
    exact .next rfl
  · rw [h, engineStep_fetched (s := { s with ST := a }) hr hf, runWord_error hd]
    exact .next rfl
  · rw [h, engineStep_fetched (s := { s with ST := a }) hr hf, runWord_ok hd]
    exact exec_sameButSound i s.advance a
  · rw [h, engineStep_awaiting (s := { s with ST := a }) hr]
    exact .next rfl
  · rw [h, engineStep_faulted (s := { s with ST := a }) hr]
    exact .next rfl

theorem decrementTimers_sameButSound (s : State) (a : Byte) :
    { State.decrementTimers { s with ST := a } with ST := s.decrementTimers.ST } = s.decrementTimers := by
  unfold State.decrementTimers
  split <;> rfl

theorem setKeypad_sameButSound (s : State) (a : Byte) (m : Word) :
    { State.setKeypad { s with ST := a } m with ST := (s.setKeypad m).ST } = s.setKeypad m := by
  unfold State.setKeypad
  split <;> rfl

theorem deliverKey_awaiting {s : State} {r : Reg} (hr : s.run = .awaitingKey r) (v : Byte) :
    s.deliverKey v = { s.setV r v with run := .running } := by
  rw [State.deliverKey, hr]

/-- A key that no wait asks for is ignored (40_engine_cycle.md R87). -/
theorem deliverKey_stray {s : State} (hr : ∀ r, s.run ≠ .awaitingKey r) (v : Byte) : s.deliverKey v = s := by
  unfold State.deliverKey
  split
  · next r hw => exact absurd hw (hr r)
  · rfl
  · rfl

theorem deliverKey_sameButSound (s : State) (a : Byte) (v : Byte) :
    { State.deliverKey { s with ST := a } v with ST := (s.deliverKey v).ST } = s.deliverKey v := by
  by_cases hw : ∃ r, s.run = .awaitingKey r
  · obtain ⟨r, hr⟩ := hw
    rw [deliverKey_awaiting hr, deliverKey_awaiting (s := { s with ST := a }) hr]
    rfl
  · push Not at hw
    rw [deliverKey_stray hw, deliverKey_stray (s := { s with ST := a }) hw]

theorem applyOp_sameButSound (op : HostOp) (s : State) (a : Byte) :
    SameButSound (applyOp op s) (applyOp op { s with ST := a }) := by
  cases op with
  | step => exact engineStep_sameButSound s a
  | decrementTimers => exact .next (decrementTimers_sameButSound s a)
  | setKeypad m => exact .next (setKeypad_sameButSound s a m)
  | deliverKey v => exact .next (deliverKey_sameButSound s a v)
  | new file => exact fun t h => ⟨t, h, rfl⟩

/-- The operation taken is the same, since the choice of it does not read ST. -/
theorem step_sameButSound (s : State) (a : Byte) : SameButSound (step s) (step { s with ST := a }) := by
  obtain ⟨hi, hf, h⟩ | ⟨hi, hf, h⟩ | ⟨op, rest, hi, hd, h⟩ | ⟨op, rest, hi, hd, h⟩ := step_cases s
  · rw [h, step_none_issued (s := { s with ST := a }) hi hf]
    exact engineStep_sameButSound s a
  · rw [h, step_faulted_idle (s := { s with ST := a }) hf hi]
    exact .next rfl
  · rw [h, step_issued (s := { s with ST := a }) hi hd]
    exact applyOp_sameButSound op { s with issued := rest } a
  · rw [h]
    exact fun _ hrefused => nomatch hrefused

/-- Settles O55: no instruction and no host operation carries ST anywhere but into ST. -/
theorem soundTimerIsUnobservable : Obligations.SoundTimerIsUnobservable := fun s t a h => step_sameButSound s a t h

end Sys2Proof.Machine
end

section
/-! Memory in its canonical form (20_memory.md R40, R45; log entry 7): that form is determined by what it reads, every step
keeps it, and bytes stored are read back at their addresses by a load and by a fetch. -/

namespace Sys2Proof.Machine

/-! ### The canonical form is determined by its reads -/

theorem Memory.read_cons_same (b : Nat) (u : Byte) (m : Memory) : Memory.read ((b, u) :: m) b = u := by
  simp [Memory.read]

theorem Memory.read_cons_of_lt {b a : Nat} (h : b < a) (u : Byte) (m : Memory) :
    Memory.read ((b, u) :: m) a = Memory.read m a := by
  rw [Memory.read, if_neg (by omega), if_neg (by omega)]

/-- A canonical memory lists no address below its first cell's. -/
theorem Memory.wfFrom_head {lo b : Nat} {u : Byte} {m : Memory} (h : Memory.wfFrom lo ((b, u) :: m) = true) :
    Memory.wfFrom b ((b, u) :: m) = true :=
  Memory.wfFrom_cons.2 ⟨le_rfl, (Memory.wfFrom_cons.1 h).2⟩

/-- A cell says something that a canonical memory which lists only higher addresses does not. -/
theorem Memory.read_cons_ne {lo hi b : Nat} {u : Byte} {m m' : Memory} (h : Memory.wfFrom lo ((b, u) :: m) = true)
    (h' : Memory.wfFrom hi m' = true) (hb : b < hi) : Memory.read ((b, u) :: m) b ≠ Memory.read m' b := by
  obtain ⟨-, -, hu, -⟩ := Memory.wfFrom_cons.1 h
  rwa [Memory.read_cons_same, Memory.read_below hb h']

theorem Memory.eq_of_read_eq_from {lo lo' : Nat} {m m' : Memory} (h : Memory.wfFrom lo m = true)
    (h' : Memory.wfFrom lo' m' = true) (hread : ∀ a < Config.memSize, m.read a = m'.read a) : m = m' := by
  induction m generalizing m' lo lo' with
  | nil =>
    cases m' with
    | nil => rfl
    | cons c' m' =>
      obtain ⟨b', u'⟩ := c'
      obtain ⟨-, hb', -, -⟩ := Memory.wfFrom_cons.1 h'
      exact absurd (hread b' hb').symm (Memory.read_cons_ne (hi := b' + 1) h' rfl (Nat.lt_succ_self b'))
  | cons c m ih =>
    obtain ⟨b, u⟩ := c
    obtain ⟨-, hb, -, hm⟩ := Memory.wfFrom_cons.1 h
    cases m' with
    | nil => exact absurd (hread b hb) (Memory.read_cons_ne (hi := b + 1) h rfl (Nat.lt_succ_self b))
    | cons c' m' =>
      obtain ⟨b', u'⟩ := c'
      obtain ⟨-, hb', -, hm'⟩ := Memory.wfFrom_cons.1 h'
      obtain hlt | rfl | hgt := Nat.lt_trichotomy b b'
      · exact absurd (hread b hb) (Memory.read_cons_ne h (Memory.wfFrom_head h') hlt)
      · have hbyte : u = u' := by simpa only [Memory.read_cons_same] using hread b hb
        have htail : m = m' := ih hm hm' fun a ha => by
          by_cases hab : b < a
          · simpa only [Memory.read_cons_of_lt hab] using hread a ha
          · rw [Memory.read_below (by omega) hm, Memory.read_below (by omega) hm']
        rw [hbyte, htail]
      · exact absurd (hread b' hb').symm (Memory.read_cons_ne h' (Memory.wfFrom_head h) hgt)

/-- Settles O52: two canonical lists that read the same have the same first cell and then the same rest. -/
theorem canonicalMemoryIsItsReads : Obligations.CanonicalMemoryIsItsReads := fun _ _ h h' hread =>
  Memory.eq_of_read_eq_from h h' hread

/-! ### Every step keeps the canonical form -/

@[simp] theorem State.decrementTimers_mem (s : State) : s.decrementTimers.mem = s.mem := by
  unfold State.decrementTimers; split <;> rfl
@[simp] theorem State.setKeypad_mem (s : State) (m : Word) : (s.setKeypad m).mem = s.mem := by
  unfold State.setKeypad; split <;> rfl
@[simp] theorem State.deliverKey_mem (s : State) (v : Byte) : (s.deliverKey v).mem = s.mem := by
  unfold State.deliverKey; split <;> rfl

/-- The canonical form speaks of memory alone. -/
theorem State.memoryCanonical_congr {s t : State} (hmem : t.mem = s.mem) (h : s.memoryCanonical) : t.memoryCanonical :=
  (congrArg Memory.wf hmem).trans h

/-- A store behind the range check of its whole length keeps the canonical form (R45). -/
theorem checkRange_storeBytes_memoryCanonical {i : Instr} {addr : Word} {vs : List Byte} {n : Nat} {s t : State}
    (hc : s.memoryCanonical) (hlen : vs.length = n + 1)
    (h : checkRange i addr (n + 1) s (fun s => done (s.storeBytes addr vs)) = .next t) : t.memoryCanonical := by
  obtain ⟨-, rfl⟩ | ⟨hr, hstore⟩ := checkRange_cases h
  · exact hc
  · obtain rfl := Host.Outcome.next.inj hstore
    have hfits : addr.toNat + vs.length ≤ 0x1000 := by
      have hin := outOfRange_eq_false.1 hr
      omega
    exact State.wf_storeBytes s addr vs hfits hc

/-- The two stores are checked for range; every other instruction leaves memory as it was. -/
theorem exec_memoryCanonical {i : Instr} {s t : State} (hc : s.memoryCanonical) (h : exec i s = .next t) :
    t.memoryCanonical := by
  have hw : OnlyWrites i s t := exec_onlyWrites h
  cases i with
  | ldBVx x => exact checkRange_storeBytes_memoryCanonical hc (length_bcdDigits _) h
  | ldMemVx x => exact checkRange_storeBytes_memoryCanonical hc (length_regsUpTo s x) h
  | _ => exact State.memoryCanonical_congr (hw.mem (by simp)) hc

theorem engineStep_memoryCanonical {s t : State} (hc : s.memoryCanonical) (h : engineStep s = .next t) :
    t.memoryCanonical := by
  obtain ⟨-, -, he⟩ | ⟨op, e, -, -, -, he⟩ | ⟨op, i, -, -, -, he⟩ | ⟨r, -, he⟩ | ⟨f, -, he⟩ := engineStep_cases s
  · exact Host.Outcome.next.inj (he.symm.trans h) ▸ hc
  · exact Host.Outcome.next.inj (he.symm.trans h) ▸ hc
  · exact exec_memoryCanonical (s := s.advance) hc (he.symm.trans h)
  · exact Host.Outcome.next.inj (he.symm.trans h) ▸ hc
  · exact Host.Outcome.next.inj (he.symm.trans h) ▸ hc

/-- An image that is loaded ends inside the address space (70_reset_and_hazards.md R181), so its bytes are in canonical form. -/
theorem newBlock_memoryCanonical {p : List Byte} {b : State} (h : newBlock p = .ok b) : b.memoryCanonical := by
  by_cases hp : p.length ≤ Config.maxProgramLen
  · rw [newBlock_ok p hp] at h
    obtain rfl := Except.ok.inj h
    exact Memory.wf_writeBytes p (Nat.add_le_of_le_sub' (by decide) hp) State.reset_mem_wf
  · rw [newBlock_error p (Nat.not_le.1 hp)] at h
    cases h

theorem reload_memoryCanonical {file : Option (List Byte)} {s t : State} (h : reload file s = .next t) :
    t.memoryCanonical := by
  rcases hl : loadFile file with e | b
  · rw [reload_error hl] at h
    cases h
  · rw [reload_ok hl] at h
    obtain rfl := Host.Outcome.next.inj h
    cases file with
    | none => cases hl
    | some p => exact newBlock_memoryCanonical (b := b) hl

theorem applyOp_memoryCanonical {op : HostOp} {s t : State} (hc : s.memoryCanonical) (h : applyOp op s = .next t) :
    t.memoryCanonical := by
  cases op with
  | step => exact engineStep_memoryCanonical hc h
  | decrementTimers => exact Host.Outcome.next.inj h ▸ State.memoryCanonical_congr s.decrementTimers_mem hc
  | setKeypad m => exact Host.Outcome.next.inj h ▸ State.memoryCanonical_congr (s.setKeypad_mem m) hc
  | deliverKey v => exact Host.Outcome.next.inj h ▸ State.memoryCanonical_congr (s.deliverKey_mem v) hc
  | new file => exact reload_memoryCanonical h

/-- Settles O50: what writes memory is the two stores and the load `new`, each checked for size before it writes. -/
theorem stepKeepsMemoryCanonical : Obligations.StepKeepsMemoryCanonical := by
  intro s t hc h
  obtain ⟨-, -, he⟩ | ⟨-, -, he⟩ | ⟨op, rest, -, -, he⟩ | ⟨op, rest, -, -, he⟩ := step_cases s
  · exact engineStep_memoryCanonical hc (he.symm.trans h)
  · exact Host.Outcome.next.inj (he.symm.trans h) ▸ hc
  · exact applyOp_memoryCanonical (s := { s with issued := rest }) hc (he.symm.trans h)
  · exact nomatch he.symm.trans h

/-! ### Bytes stored are read back -/

/-- Byte k of a store that fits is read at the k-th address (R44). -/
theorem State.readByte_storeBytes_add {s : State} {addr : Word} {vs : List Byte} {k : Nat} (hc : s.memoryCanonical)
    (hfits : addr.toNat + vs.length ≤ 0x1000) (hk : k < vs.length) :
    (s.storeBytes addr vs).readByte (addr.toNat + k) = vs.getD k 0 := by
  rw [State.readByte_storeBytes s addr vs hfits hc, if_pos (by omega), Nat.add_sub_cancel_left]

/-- After a dump in range V[r] is read at I + r (R134). -/
theorem readByte_of_exec_ldMemVx {x r : Reg} {s t : State} (hc : s.memoryCanonical) (hI : s.I.toNat + x.val ≤ 0xFFF)
    (h : exec (.ldMemVx x) s = .next t) (hr : r ≤ x) : t.readByte (s.I.toNat + r.val) = s.getV r := by
  obtain rfl := Host.Outcome.next.inj ((exec_ldMemVx_in_range x hI).symm.trans h)
  have hlen : (s.regsUpTo x).length = x.val + 1 := length_regsUpTo s x
  have hrx : r.val ≤ x.val := hr
  rw [State.readByte_reply, State.readByte_storeBytes_add hc (by omega) (by omega), getD_regsUpTo s x r hr]

/-- After a BCD store in range digit k is read at I + k (R133). -/
theorem readByte_of_exec_ldBVx {x : Reg} {k : Nat} {s t : State} (hc : s.memoryCanonical) (hI : s.I.toNat + 2 ≤ 0xFFF)
    (h : exec (.ldBVx x) s = .next t) (hk : k < 3) :
    t.readByte (s.I.toNat + k) = (bcdDigits (s.getV x)).getD k 0 := by
  obtain rfl := Host.Outcome.next.inj ((exec_ldBVx_in_range x hI).symm.trans h)
  have hlen : (bcdDigits (s.getV x)).length = 3 := length_bcdDigits _
  rw [State.readByte_reply, State.readByte_storeBytes_add hc (by omega) (by omega)]

/-- Settles O34: the load reads V[r] where the dump left it, at I + r. -/
theorem dumpThenLoadRestores : Obligations.DumpThenLoadRestores := by
  intro x s t u hc hI h hmem huI
  have hsame : u.I = s.I := huI.trans ((exec_onlyWrites h).index (by simp))
  refine ⟨_, exec_ldVxMem_in_range x (hsame ▸ hI), fun r hr => ?_⟩
  rw [State.getV_reply, State.getV_loadRegs, if_pos hr, hsame, State.readByte_congr t u hmem,
    readByte_of_exec_ldMemVx hc hI h hr]

/-- Settles O35: a store leaves pc, and the fetch reads the two bytes at pc, which are bytes stored. -/
theorem storesAreSeenByTheNextFetch : Obligations.StoresAreSeenByTheNextFetch := by
  intro x s t hc
  refine ⟨fun h hI a b ha hb hpa hpb => ?_, fun h hI hpI => ?_⟩
  · have hpc : t.pc = s.pc := (exec_onlyWrites h).pc rfl
    have hbx : b.val ≤ x.val := hb
    have hfetch : t.pc.toNat ≤ 0xFFE := by
      rw [hpc]
      omega
    rw [fetchWord_in_range t hfetch, hpc, hpb, hpa, readByte_of_exec_ldMemVx hc hI h ha,
      readByte_of_exec_ldMemVx hc hI h hb, wordOfBytes]
  · have hpc : t.pc = s.I := ((exec_onlyWrites h).pc rfl).trans hpI
    have hfetch : t.pc.toNat ≤ 0xFFE := by
      rw [hpc]
      omega
    have hhi : t.readByte s.I.toNat = _ := readByte_of_exec_ldBVx (k := 0) hc hI h (by decide)
    have hlo : t.readByte (s.I.toNat + 1) = _ := readByte_of_exec_ldBVx (k := 1) hc hI h (by decide)
    rw [fetchWord_in_range t hfetch, hpc, hhi, hlo]
    rfl

end Sys2Proof.Machine
end

section
/-! The encoder and the decoder against each other and against the opcode map (30_encoding.md R60-R66). -/

namespace Sys2Proof

/-! ### From an instruction to its word and back -/

open Laws.RoundTrip in
theorem decodeWord_encode {i : Instr} (h : i.wf = true) : decodeWord (encode i) = .ok i := by
  cases i with
  | cls => exact cls h
  | ret => exact ret h
  | jp nnn => exact jp nnn h
  | call nnn => exact call nnn h
  | seImm x kk => exact seImm x kk h
  | sneImm x kk => exact sneImm x kk h
  | seReg x y => exact seReg x y h
  | sneReg x y => exact sneReg x y h
  | ldImm x kk => exact ldImm x kk h
  | addImm x kk => exact addImm x kk h
  | ldReg x y => exact ldReg x y h
  | orReg x y => exact orReg x y h
  | andReg x y => exact andReg x y h
  | xorReg x y => exact xorReg x y h
  | addReg x y => exact addReg x y h
  | subReg x y => exact subReg x y h
  | shr x y => exact shr x y h
  | subnReg x y => exact subnReg x y h
  | shl x y => exact shl x y h
  | ldI nnn => exact ldI nnn h
  | jpV0 nnn => exact jpV0 nnn h
  | rnd x kk => exact rnd x kk h
  | drw x y n => exact drw x y n h
  | skp x => exact skp x h
  | sknp x => exact sknp x h
  | ldVxDT x => exact ldVxDT x h
  | ldDTVx x => exact ldDTVx x h
  | ldSTVx x => exact ldSTVx x h
  | addIVx x => exact addIVx x h
  | ldFVx x => exact ldFVx x h
  | ldBVx x => exact ldBVx x h
  | ldMemVx x => exact ldMemVx x h
  | ldVxMem x => exact ldVxMem x h
  | ldVxK x => exact ldVxK x h

/-- Settles O1: the round trip holds of each instruction, and decoding the two bytes of a word is decoding the word. -/
theorem decodeOfEncodeIsTheInstruction : Obligations.DecodeOfEncodeIsTheInstruction := by
  intro i h
  have hword : decodeWord (encode i) = .ok i := decodeWord_encode h
  refine ⟨hword, fun rest => ?_⟩
  calc decode (encodeBytes i ++ rest)
      _ = (decodeWord (encode i)).map fun i => (i, rest) := decode_bytes (encode i) rest
      _ = .ok (i, rest) := by rw [hword]; rfl

/-! ### A word is its layout filled with its fields -/

section
variable {w : Word} {a n : Nibble} {kk : Byte} {nnn : Imm12}

theorem packNNN_of_fieldN0 (ha : fieldN0 w = a) : packNNN a (fieldNNN w) = w := by
  rw [← ha, packNNN_fields]

theorem packNNN_of_fields (ha : fieldN0 w = a) (hn : fieldNNN w = nnn) : packNNN a nnn = w := by
  rw [← hn, packNNN_of_fieldN0 ha]

theorem packXKK_of_fieldN0 (ha : fieldN0 w = a) : packXKK a (regBits (regOf (fieldX w))) (fieldKK w) = w := by
  rw [← ha, regBits_regOf, packXKK_fields]

theorem packXKK_of_fields (ha : fieldN0 w = a) (hk : fieldKK w = kk) :
    packXKK a (regBits (regOf (fieldX w))) kk = w := by
  rw [← hk, packXKK_of_fieldN0 ha]

theorem packXYN_of_fields (ha : fieldN0 w = a) (hn : fieldN w = n) :
    packXYN a (regBits (regOf (fieldX w))) (regBits (regOf (fieldY w))) n = w := by
  rw [← ha, ← hn, regBits_regOf, regBits_regOf, packXYN_fields]

theorem packXYN_of_fieldN0 (ha : fieldN0 w = a) :
    packXYN a (regBits (regOf (fieldX w))) (regBits (regOf (fieldY w))) (BitVec.ofNat 4 (fieldN w).toNat) = w := by
  rw [BitVec.ofNat_toNat, BitVec.setWidth_eq, packXYN_of_fields ha rfl]

end

/-! ### From a word to the instruction it decodes to, and back -/

/-- i is well formed and w is its word. -/
def Encodes (i : Instr) (w : Word) : Prop := encode i = w ∧ i.wf = true

section
variable {w : Word} {i : Instr}

theorem encodes_of_ok {j : Instr} (h : (.ok j : Except DecodeError Instr) = .ok i) (hword : encode j = w)
    (hwf : j.wf = true) : Encodes i w :=
  Except.ok.inj h ▸ ⟨hword, hwf⟩

theorem encodes_of_decodeAlu (hn0 : fieldN0 w = 0x8) (h : decodeAlu w = .ok i) : Encodes i w := by
  unfold decodeAlu at h
  split at h
  case h_10 => cases h
  all_goals
    next hn => exact encodes_of_ok h (packXYN_of_fields hn0 (BitVec.eq_of_toNat_eq hn)) rfl

theorem encodes_of_decodeMisc (hn0 : fieldN0 w = 0xF) (h : decodeMisc w = .ok i) : Encodes i w := by
  unfold decodeMisc at h
  split at h
  case h_10 => cases h
  all_goals
    next hkk => exact encodes_of_ok h (packXKK_of_fields hn0 (BitVec.eq_of_toNat_eq hkk)) rfl

/-- The arms are taken by the layout of the words they read: n0 nnn, n0 x kk, n0 x y n. -/
theorem encodes_of_decodeWord (h : decodeWord w = .ok i) : Encodes i w := by
  unfold decodeWord at h
  split at h
  case h_1 hn0 =>
    have hn0 : fieldN0 w = 0x0 := BitVec.eq_of_toNat_eq hn0
    split at h
    · next hn => exact encodes_of_ok h (packNNN_of_fields hn0 (BitVec.eq_of_toNat_eq hn)) rfl
    · next hn => exact encodes_of_ok h (packNNN_of_fields hn0 (BitVec.eq_of_toNat_eq hn)) rfl
    · cases h
  case h_2 hn0 | h_3 hn0 | h_11 hn0 | h_12 hn0 =>
    exact encodes_of_ok h (packNNN_of_fieldN0 (BitVec.eq_of_toNat_eq hn0)) rfl
  case h_4 hn0 | h_5 hn0 | h_7 hn0 | h_8 hn0 | h_13 hn0 =>
    exact encodes_of_ok h (packXKK_of_fieldN0 (BitVec.eq_of_toNat_eq hn0)) rfl
  case h_6 hn0 | h_10 hn0 =>
    split at h
    · next hn => exact encodes_of_ok h (packXYN_of_fields (BitVec.eq_of_toNat_eq hn0) (BitVec.eq_of_toNat_eq hn)) rfl
    · cases h
  case h_9 hn0 => exact encodes_of_decodeAlu (BitVec.eq_of_toNat_eq hn0) h
  case h_14 hn0 =>
    have hwf : (fieldN w).toNat ≤ 15 := Nat.le_of_lt_succ (fieldN w).isLt
    exact encodes_of_ok h (packXYN_of_fieldN0 (BitVec.eq_of_toNat_eq hn0)) (decide_eq_true hwf)
  case h_15 hn0 =>
    split at h
    · next hkk => exact encodes_of_ok h (packXKK_of_fields (BitVec.eq_of_toNat_eq hn0) (BitVec.eq_of_toNat_eq hkk)) rfl
    · next hkk => exact encodes_of_ok h (packXKK_of_fields (BitVec.eq_of_toNat_eq hn0) (BitVec.eq_of_toNat_eq hkk)) rfl
    · cases h
  case h_16 =>
    have hn0 : (fieldN0 w).toNat = 15 := by
      have := (fieldN0 w).isLt
      simp only [imp_false] at *
      omega
    exact encodes_of_decodeMisc (BitVec.eq_of_toNat_eq hn0) h

end

/-- Settles O2: the arm that decoded the word names the fields the word is packed from. -/
theorem encodeOfDecodeIsTheWord : Obligations.EncodeOfDecodeIsTheWord := fun _ _ h => encodes_of_decodeWord h

/-! ### The words that decode to nothing -/

/-- w is one of the words that R64 lists. -/
def InvalidWord (w : Word) : Prop :=
  (w.toNat < 0x1000 ∧ w.toNat ≠ 0x00E0 ∧ w.toNat ≠ 0x00EE) ∨
  (w.toNat / 4096 = 0x5 ∧ w.toNat % 16 ≠ 0) ∨
  (w.toNat / 4096 = 0x8 ∧ w.toNat % 16 ∈ [0x8, 0x9, 0xA, 0xB, 0xC, 0xD, 0xF]) ∨
  (w.toNat / 4096 = 0x9 ∧ w.toNat % 16 ≠ 0) ∨
  (w.toNat / 4096 = 0xE ∧ w.toNat % 256 ∉ [0x9E, 0xA1]) ∨
  (w.toNat / 4096 = 0xF ∧ w.toNat % 256 ∉ [0x07, 0x0A, 0x15, 0x18, 0x1E, 0x29, 0x33, 0x55, 0x65])

section
variable {w : Word} {e : DecodeError}

/-- The rejection of a word is the one error there is, where P holds. -/
theorem reject_eq_error_iff {P : Prop} (h : P) :
    (.error (.invalidOpcode w) : Except DecodeError Instr) = .error e ↔ e = .invalidOpcode w ∧ P := by
  rw [Except.error.injEq, eq_comm, and_iff_left h]

theorem ok_eq_error_iff {P : Prop} {i : Instr} (h : ¬ P) :
    (.ok i : Except DecodeError Instr) = .error e ↔ e = .invalidOpcode w ∧ P :=
  ⟨nofun, fun he => absurd he.2 h⟩

theorem decodeAlu_error_iff :
    decodeAlu w = .error e ↔ e = .invalidOpcode w ∧ w.toNat % 16 ∈ [0x8, 0x9, 0xA, 0xB, 0xC, 0xD, 0xF] := by
  unfold decodeAlu
  simp only [toNat_fieldN]
  split
  case h_10 =>
    refine reject_eq_error_iff ?_
    simp only [List.mem_cons, List.not_mem_nil, or_false, imp_false] at *
    omega
  all_goals exact ok_eq_error_iff (by simp [*])

theorem decodeMisc_error_iff :
    decodeMisc w = .error e ↔
      e = .invalidOpcode w ∧ w.toNat % 256 ∉ [0x07, 0x0A, 0x15, 0x18, 0x1E, 0x29, 0x33, 0x55, 0x65] := by
  unfold decodeMisc
  simp only [toNat_fieldKK]
  split
  case h_10 => exact reject_eq_error_iff (by simp_all)
  all_goals exact ok_eq_error_iff (by simp [*])

/-- The decoder fails in one way, on the words listed alone (R64): the first nibble chooses the clause of the list. -/
theorem decodeWord_error_iff : decodeWord w = .error e ↔ e = .invalidOpcode w ∧ InvalidWord w := by
  have hlow : w.toNat < 0x1000 ↔ w.toNat / 4096 = 0 := by omega
  have htop : w.toNat / 4096 < 16 := by omega
  unfold decodeWord InvalidWord
  simp only [toNat_fieldN0, toNat_fieldNNN, toNat_fieldN, toNat_fieldKK, hlow]
  split
  case h_1 hn0 =>
    have hnnn : w.toNat % 4096 = w.toNat := by omega
    simp only [hnnn]
    split
    case h_3 => exact reject_eq_error_iff (by simp_all)
    all_goals exact ok_eq_error_iff (by simp [*])
  case h_6 hn0 | h_10 hn0 =>
    split
    · exact ok_eq_error_iff (by simp [*])
    · exact reject_eq_error_iff (by simp_all)
  case h_9 hn0 => simp [decodeAlu_error_iff, hn0]
  case h_15 hn0 =>
    split
    case h_3 => exact reject_eq_error_iff (by simp_all)
    all_goals exact ok_eq_error_iff (by simp [*])
  case h_16 =>
    have hn0 : w.toNat / 4096 = 15 := by
      simp only [imp_false] at *
      omega
    simp [decodeMisc_error_iff, hn0]
  all_goals
    next hn0 => exact ok_eq_error_iff (by simp [hn0])

end

/-- Settles O4: the decoder fails in one way, on the words listed and on no others. -/
theorem invalidWordsAreThoseListed : Obligations.InvalidWordsAreThoseListed := fun _ =>
  ⟨fun _ he => (decodeWord_error_iff.1 he).1, decodeWord_error_iff.trans (and_iff_right rfl)⟩

/-! ### The rows of the opcode map -/

/-- w is on row r: "a word selects it when `w & mask == match`" (R63). -/
def OpcodeRow.Selects (r : OpcodeRow) (w : Word) : Prop := w &&& r.mask = r.bits

/-- Two rows that select one word agree in the bits that both of them fix. -/
theorem OpcodeRow.Selects.bits_and_mask {p q : OpcodeRow} {w : Word} (hp : p.Selects w) (hq : q.Selects w) :
    p.bits &&& q.mask = q.bits &&& p.mask := by
  rw [← hp, ← hq, BitVec.and_assoc, BitVec.and_assoc, BitVec.and_comm p.mask]

/-- Any two rows of the map differ in a bit that both of them fix. -/
theorem opcodeMap_pairwise_bits_and_mask_ne :
    opcodeMap.Pairwise fun p q => p.bits &&& q.mask ≠ q.bits &&& p.mask := by decide

theorem opcodeMap_pairwise_disjoint : opcodeMap.Pairwise fun p q => ∀ w, ¬ (p.Selects w ∧ q.Selects w) :=
  opcodeMap_pairwise_bits_and_mask_ne.imp fun hne _ hw => hne (hw.1.bits_and_mask hw.2)

/-! ### A word on a row is the word of an instruction of that row -/

/-- Row r has an instruction for w: if w is on the row, it is the word of an instruction with the row's mnemonic. -/
def OpcodeRow.HasInstr (r : OpcodeRow) (w : Word) : Prop :=
  r.Selects w → ∃ i, Encodes i w ∧ i.mnemonic = r.mnemonic

section
variable {w b : Word} {a n : Nibble} {kk : Byte}

theorem fieldN0_of_F000 (h : w &&& 0xF000 = packNNN a 0) : fieldN0 w = a := by
  rw [and_F000] at h
  simpa using congrArg fieldN0 h

theorem packNNN_of_F000 (h : w &&& 0xF000 = packNNN a 0) : packNNN a (fieldNNN w) = w :=
  packNNN_of_fieldN0 (fieldN0_of_F000 h)

theorem packXKK_of_F000 (h : w &&& 0xF000 = packNNN a 0) :
    packXKK a (regBits (regOf (fieldX w))) (fieldKK w) = w :=
  packXKK_of_fieldN0 (fieldN0_of_F000 h)

theorem packXYN_of_F000 (h : w &&& 0xF000 = packNNN a 0) :
    packXYN a (regBits (regOf (fieldX w))) (regBits (regOf (fieldY w))) (BitVec.ofNat 4 (fieldN w).toNat) = w :=
  packXYN_of_fieldN0 (fieldN0_of_F000 h)

theorem packXYN_of_F00F (h : w &&& 0xF00F = packXYN a 0 0 n) :
    packXYN a (regBits (regOf (fieldX w))) (regBits (regOf (fieldY w))) n = w := by
  rw [and_F00F] at h
  exact packXYN_of_fields (by simpa using congrArg fieldN0 h) (by simpa using congrArg fieldN h)

theorem packXKK_of_F0FF (h : w &&& 0xF0FF = packXKK a 0 kk) : packXKK a (regBits (regOf (fieldX w))) kk = w := by
  rw [and_F0FF] at h
  exact packXKK_of_fields (by simpa using congrArg fieldN0 h) (by simpa using congrArg fieldKK h)

theorem eq_of_FFFF (h : w &&& 0xFFFF = b) : b = w := h.symm.trans (and_FFFF w)

theorem opcodeRowsFlow_hasInstr : ∀ r ∈ opcodeRowsFlow, r.HasInstr w := by
  simp only [opcodeRowsFlow, List.forall_mem_cons]
  exact
    ⟨fun h => ⟨.cls, ⟨eq_of_FFFF h, rfl⟩, rfl⟩,
     fun h => ⟨.ret, ⟨eq_of_FFFF h, rfl⟩, rfl⟩,
     fun h => ⟨.jp _, ⟨packNNN_of_F000 h, rfl⟩, rfl⟩,
     fun h => ⟨.call _, ⟨packNNN_of_F000 h, rfl⟩, rfl⟩,
     fun h => ⟨.seImm _ _, ⟨packXKK_of_F000 h, rfl⟩, rfl⟩,
     fun h => ⟨.sneImm _ _, ⟨packXKK_of_F000 h, rfl⟩, rfl⟩,
     fun h => ⟨.seReg _ _, ⟨packXYN_of_F00F h, rfl⟩, rfl⟩,
     fun h => ⟨.sneReg _ _, ⟨packXYN_of_F00F h, rfl⟩, rfl⟩,
     fun h => ⟨.ldImm _ _, ⟨packXKK_of_F000 h, rfl⟩, rfl⟩,
     fun h => ⟨.addImm _ _, ⟨packXKK_of_F000 h, rfl⟩, rfl⟩,
     List.forall_mem_nil _⟩

theorem opcodeRowsAlu_hasInstr : ∀ r ∈ opcodeRowsAlu, r.HasInstr w := by
  simp only [opcodeRowsAlu, List.forall_mem_cons]
  exact
    ⟨fun h => ⟨.ldReg _ _, ⟨packXYN_of_F00F h, rfl⟩, rfl⟩,
     fun h => ⟨.orReg _ _, ⟨packXYN_of_F00F h, rfl⟩, rfl⟩,
     fun h => ⟨.andReg _ _, ⟨packXYN_of_F00F h, rfl⟩, rfl⟩,
     fun h => ⟨.xorReg _ _, ⟨packXYN_of_F00F h, rfl⟩, rfl⟩,
     fun h => ⟨.addReg _ _, ⟨packXYN_of_F00F h, rfl⟩, rfl⟩,
     fun h => ⟨.subReg _ _, ⟨packXYN_of_F00F h, rfl⟩, rfl⟩,
     fun h => ⟨.shr _ _, ⟨packXYN_of_F00F h, rfl⟩, rfl⟩,
     fun h => ⟨.subnReg _ _, ⟨packXYN_of_F00F h, rfl⟩, rfl⟩,
     fun h => ⟨.shl _ _, ⟨packXYN_of_F00F h, rfl⟩, rfl⟩,
     List.forall_mem_nil _⟩

theorem opcodeRowsRest_hasInstr : ∀ r ∈ opcodeRowsRest, r.HasInstr w := by
  simp only [opcodeRowsRest, List.forall_mem_cons]
  exact
    ⟨fun h => ⟨.ldI _, ⟨packNNN_of_F000 h, rfl⟩, rfl⟩,
     fun h => ⟨.jpV0 _, ⟨packNNN_of_F000 h, rfl⟩, rfl⟩,
     fun h => ⟨.rnd _ _, ⟨packXKK_of_F000 h, rfl⟩, rfl⟩,
     fun h => ⟨.drw _ _ _, ⟨packXYN_of_F000 h, decide_eq_true (Nat.le_of_lt_succ (fieldN w).isLt)⟩, rfl⟩,
     fun h => ⟨.skp _, ⟨packXKK_of_F0FF h, rfl⟩, rfl⟩,
     fun h => ⟨.sknp _, ⟨packXKK_of_F0FF h, rfl⟩, rfl⟩,
     fun h => ⟨.ldVxDT _, ⟨packXKK_of_F0FF h, rfl⟩, rfl⟩,
     fun h => ⟨.ldDTVx _, ⟨packXKK_of_F0FF h, rfl⟩, rfl⟩,
     fun h => ⟨.ldSTVx _, ⟨packXKK_of_F0FF h, rfl⟩, rfl⟩,
     fun h => ⟨.addIVx _, ⟨packXKK_of_F0FF h, rfl⟩, rfl⟩,
     fun h => ⟨.ldFVx _, ⟨packXKK_of_F0FF h, rfl⟩, rfl⟩,
     fun h => ⟨.ldBVx _, ⟨packXKK_of_F0FF h, rfl⟩, rfl⟩,
     fun h => ⟨.ldMemVx _, ⟨packXKK_of_F0FF h, rfl⟩, rfl⟩,
     fun h => ⟨.ldVxMem _, ⟨packXKK_of_F0FF h, rfl⟩, rfl⟩,
     fun h => ⟨.ldVxK _, ⟨packXKK_of_F0FF h, rfl⟩, rfl⟩,
     List.forall_mem_nil _⟩

theorem opcodeMap_hasInstr {r : OpcodeRow} (hr : r ∈ opcodeMap) : r.HasInstr w := by
  simp only [opcodeMap, List.mem_append] at hr
  obtain (hflow | halu) | hrest := hr
  · exact opcodeRowsFlow_hasInstr r hflow
  · exact opcodeRowsAlu_hasInstr r halu
  · exact opcodeRowsRest_hasInstr r hrest

end

/-! ### The word of an instruction is on a row -/

theorem exists_row_of_and {w m b : Word} (h : ∃ r ∈ opcodeMap, r.mask = m ∧ r.bits = b) (hw : w &&& m = b) :
    ∃ r ∈ opcodeMap, r.Selects w := by
  obtain ⟨r, hr, rfl, rfl⟩ := h
  exact ⟨r, hr, hw⟩

theorem packNNN_and_F000 (a : Nibble) (nnn : Imm12) : packNNN a nnn &&& 0xF000 = packNNN a 0 := by
  rw [and_F000, fieldN0_packNNN]

theorem packXKK_and_F000 (a x : Nibble) (kk : Byte) : packXKK a x kk &&& 0xF000 = packNNN a 0 := by
  rw [and_F000, fieldN0_packXKK]

theorem packXYN_and_F000 (a x y n : Nibble) : packXYN a x y n &&& 0xF000 = packNNN a 0 := by
  rw [and_F000, fieldN0_packXYN]

theorem packXYN_and_F00F (a x y n : Nibble) : packXYN a x y n &&& 0xF00F = packXYN a 0 0 n := by
  rw [and_F00F, fieldN0_packXYN, fieldN_packXYN]

theorem packXKK_and_F0FF (a x : Nibble) (kk : Byte) : packXKK a x kk &&& 0xF0FF = packXKK a 0 kk := by
  rw [and_F0FF, fieldN0_packXKK, fieldKK_packXKK]

theorem exists_row_encode (i : Instr) : ∃ r ∈ opcodeMap, r.Selects (encode i) := by
  cases i with
  | cls | ret => exact exists_row_of_and (by decide) (and_FFFF _)
  | jp _ | call _ | ldI _ | jpV0 _ => exact exists_row_of_and (by decide) (packNNN_and_F000 _ _)
  | seImm _ _ | sneImm _ _ | ldImm _ _ | addImm _ _ | rnd _ _ =>
    exact exists_row_of_and (by decide) (packXKK_and_F000 _ _ _)
  | drw _ _ _ => exact exists_row_of_and (by decide) (packXYN_and_F000 _ _ _ _)
  | seReg _ _ | sneReg _ _ | ldReg _ _ | orReg _ _ | andReg _ _ | xorReg _ _ | addReg _ _ | subReg _ _ | shr _ _
  | subnReg _ _ | shl _ _ => exact exists_row_of_and (by decide) (packXYN_and_F00F _ _ _ _)
  | skp _ | sknp _ | ldVxDT _ | ldDTVx _ | ldSTVx _ | addIVx _ | ldFVx _ | ldBVx _ | ldMemVx _ | ldVxMem _ | ldVxK _ =>
    exact exists_row_of_and (by decide) (packXKK_and_F0FF _ _ _)

/-- Settles O3: a word on a row is the word of an instruction of that row, so it decodes to it; a word that decodes is
the word of an instruction, so it is on a row. -/
theorem decoderFollowsTheOpcodeMap : Obligations.DecoderFollowsTheOpcodeMap := by
  refine ⟨rfl, opcodeMap_pairwise_disjoint, fun w => ⟨fun r hr hw => ?_, fun hnone => ?_⟩⟩
  · obtain ⟨i, ⟨hword, hwf⟩, hname⟩ := opcodeMap_hasInstr hr hw
    exact ⟨i, hword ▸ decodeWord_encode hwf, hname⟩
  · cases hd : decodeWord w with
    | ok i =>
      obtain ⟨rfl, -⟩ := encodes_of_decodeWord hd
      obtain ⟨r, hr, hw⟩ := exists_row_encode i
      exact absurd hw (hnone r hr)
    | error e => rw [(decodeWord_error_iff.1 hd).1]

/-- Settles O5, by evaluation of the decoder. -/
theorem wordsOfEachFamilyDecode : Obligations.WordsOfEachFamilyDecode := by
  unfold Obligations.WordsOfEachFamilyDecode
  decide

end Sys2Proof
end

section
/-! What the host may call, and what a step then is (40_engine_cycle.md R82, R83, R89). -/

namespace Sys2Proof.Machine

variable {s : State}

theorem RunState.isFaulted_eq_true_iff (r : RunState) : r.isFaulted = true ↔ ∃ f, r = .faulted f := by
  cases r <;> simp [RunState.isFaulted]

theorem RunState.isFaulted_eq_false_iff (r : RunState) : r.isFaulted = false ↔ ∀ f, r ≠ .faulted f := by
  cases r <;> simp [RunState.isFaulted]

theorem dutiful_step_iff : HostOp.dutiful s .step = true ↔ ∀ f, s.run ≠ .faulted f := by
  rw [HostOp.dutiful, Bool.not_eq_true', RunState.isFaulted_eq_false_iff]

theorem dutiful_deliverKey_iff (v : Byte) :
    HostOp.dutiful s (.deliverKey v) = true ↔ (∃ r, s.run = .awaitingKey r) ∧ v.toNat ≤ 0xF := by
  rw [HostOp.dutiful]
  cases s.run <;> simp

/-- Settles O58: the duties read off case by case, and a step is the oldest issued operation or its refusal. -/
theorem hostHasNoForbiddenMove : Obligations.HostHasNoForbiddenMove := fun _ =>
  ⟨fun _ _ hi => ⟨step_issued hi, step_breach hi⟩, dutiful_step_iff, dutiful_deliverKey_iff, rfl, fun _ => rfl,
    fun _ => rfl⟩

/-- Settles O9: the engine cycle answers a wait with nothing but its report. -/
theorem stepWhileAwaitingChangesNothing : Obligations.StepWhileAwaitingChangesNothing := fun _ _ hr hi =>
  step_awaiting hr hi

theorem step_fetched_ok {w : Word} {i : Instr} (hr : s.run = .running) (hi : s.issued = [])
    (hf : s.fetchWord = some w) (hd : decodeWord w = .ok i) : step s = exec i s.advance := by
  rw [step_running hr hi, engineStep_fetched hr hf, runWord_ok hd]

/-- Settles O6: the range of pc decides the fetch, and the word fetched decides the rest. -/
theorem stepRunsTheDecodedInstruction : Obligations.StepRunsTheDecodedInstruction := by
  intro s hr hi
  refine ⟨fun hpc => ?_, fun hpc w hw => ?_⟩
  · rw [step_running hr hi, engineStep_no_fetch hr ((fetchWord_eq_none_iff s).2 hpc)]
    rfl
  · have hf : s.fetchWord = some w := by rw [fetchWord_in_range s hpc, hw, wordOfBytes]
    refine ⟨fun i hd => step_fetched_ok hr hi hf hd, fun e hd => ?_⟩
    rw [step_running hr hi, engineStep_fetched hr hf, runWord_error hd]
    rfl

end Sys2Proof.Machine
end

section
/-! A word placed for the next step (log entry 8), and the jump to itself that ends a run (40_engine_cycle.md R92). -/

namespace Sys2Proof.Machine

/-! ### The placed word is fetched -/

theorem tableWord_toNat (w : Word) : BitVec.ofNat 16 (w.toNat % 2 ^ 16) = w := by
  rw [Nat.mod_eq_of_lt w.isLt, BitVec.ofNat_toNat, BitVec.setWidth_eq]

theorem decodeTableWord_toNat (w : Word) : decodeTableWord 16 w.toNat = (decodeWord w).toOption := by
  simp only [decodeTableWord, tableWord_toNat, decode_bytes]
  cases decodeWord w <;> rfl

theorem withFetchWord_toNat (s : State) (w : Word) : s.withFetchWord 16 w.toNat = s.placeWord w := by
  rw [State.withFetchWord, tableWord_toNat]

theorem toNat_fetchAddr_le (s : State) : s.fetchAddr.toNat ≤ 0xFFE := by
  unfold State.fetchAddr
  split
  · decide
  · next hr =>
    have hin := outOfRange_eq_false.1 (Bool.not_eq_true _ ▸ hr)
    omega

theorem fetchWord_placeWord {s : State} (hc : s.memoryCanonical) (w : Word) : (s.placeWord w).fetchWord = some w := by
  have hpc : s.fetchAddr.toNat ≤ 0xFFE := toNat_fetchAddr_le s
  have hfits : s.fetchAddr.toNat + [highByte w, lowByte w].length ≤ 0x1000 := by
    simp only [List.length_cons, List.length_nil]
    omega
  have hhi : (s.placeWord w).readByte s.fetchAddr.toNat = highByte w :=
    State.readByte_storeBytes_add (k := 0) hc hfits (by simp)
  have hlo : (s.placeWord w).readByte (s.fetchAddr.toNat + 1) = lowByte w :=
    State.readByte_storeBytes_add (k := 1) hc hfits (by simp)
  calc (s.placeWord w).fetchWord
      _ = some (wordOfBytes ((s.placeWord w).readByte s.fetchAddr.toNat)
            ((s.placeWord w).readByte (s.fetchAddr.toNat + 1))) := fetchWord_in_range (s.placeWord w) hpc
      _ = some w := by rw [hhi, hlo, wordOfBytes_bytes]

/-- Settles O8: the placed word is the one fetched, by a machine that runs with no operation issued. -/
theorem placedWordIsTheNextInstruction : Obligations.PlacedWordIsTheNextInstruction := by
  refine ⟨decodeTableWord_toNat, fun s w i hc hd => ?_⟩
  rw [withFetchWord_toNat]
  exact step_fetched_ok rfl rfl (fetchWord_placeWord hc w) hd

/-! ### The self-jump -/

/-- The jump to an address is 0x1000 with the address in its low bits (R92). -/
theorem encode_jp_setWidth {pc : Word} (h : pc.toNat ≤ 0xFFE) : encode (.jp (pc.setWidth 12)) = 0x1000 ||| pc := by
  apply BitVec.eq_of_toNat_eq
  calc (encode (.jp (pc.setWidth 12))).toNat
      _ = 2 ^ 12 * 1 + pc.toNat := by
        rw [encode, toNat_packNNN, BitVec.toNat_setWidth, Nat.mod_eq_of_lt (by omega)]
        rfl
      _ = (0x1000 ||| pc).toNat := by
        rw [Nat.two_pow_add_eq_or_of_lt (by omega), BitVec.toNat_or]
        rfl

theorem zextImm_setWidth {pc : Word} (h : pc.toNat ≤ 0xFFE) : zextImm (pc.setWidth 12) = pc := by
  apply BitVec.eq_of_toNat_eq
  rw [toNat_zextImm, BitVec.toNat_setWidth]
  omega

/-- Settles O20: the word fetched is the jump to pc, which puts pc back where it was. -/
theorem finishedStateStaysFinished : Obligations.FinishedStateStaysFinished := by
  rintro s ⟨hr, hpc, hf⟩ hi
  refine ⟨?_, hr, hpc, hf⟩
  rw [← encode_jp_setWidth hpc] at hf
  rw [step_fetched_ok hr hi hf (decodeWord_encode rfl), exec, execJp, zextImm_setWidth hpc]
  rfl

end Sys2Proof.Machine
end

section
/-! How each instruction ends (40_engine_cycle.md R85, 60_exceptions.md R163): it enters Faulted, or it completes with its
effect and its run state. From this: what can stop the machine, the effects, and the report's agreement with the run state. -/

namespace Sys2Proof.Machine

/-- The effect of an instruction that completes, where d is the display it leaves (R85). -/
def effectOf (i : Instr) (d : Display) : Effect :=
  match i with
  | .cls | .drw _ _ _ => .redraw d
  | .ldVxK _ => .awaitKey
  | _ => .none

/-- The run state after an instruction that completes: `LD Vx, K` waits, every other leaves it (R88). -/
def runAfter (i : Instr) (r : RunState) : RunState :=
  match i with
  | .ldVxK x => .awaitingKey x
  | _ => r

theorem effectOf_eq_none {i : Instr} (h : ∀ x y n, i ≠ .cls ∧ i ≠ .drw x y n ∧ i ≠ .ldVxK x) (d : Display) :
    effectOf i d = .none := by
  cases i with
  | cls => exact absurd rfl (h 0 0 0).1
  | drw x y n => exact absurd rfl (h x y n).2.1
  | ldVxK x => exact absurd rfl (h x 0 0).2.2
  | _ => rfl

theorem runAfter_eq_self {i : Instr} (h : ∀ x, i ≠ .ldVxK x) (r : RunState) : runAfter i r = r := by
  cases i with
  | ldVxK x => exact absurd rfl (h x)
  | _ => rfl

/-- The two ways in which instruction i answers from s, each with a next state. -/
inductive Ends (i : Instr) (s : State) : Answer → Prop
  | faults (e : ExecutionError) : Ends i s (.next (s.raise e (s.pc - 2) (some (encode i))))
  | completes (t : State) (hrun : t.run = runAfter i s.run) (hreport : t.report = some (.ok (effectOf i t.disp))) :
      Ends i s (.next t)

section
variable {i : Instr} {s : State}

theorem Ends.exists_next {A : Answer} (h : Ends i s A) : ∃ t, A = .next t := by
  cases h with
  | faults e => exact ⟨_, rfl⟩
  | completes t _ _ => exact ⟨t, rfl⟩

theorem ends_checkRange {addr : Word} {n : Nat} {body : State → Answer} (hbody : Ends i s (body s)) :
    Ends i s (checkRange i addr n s body) := by
  unfold checkRange
  split
  · exact .faults _
  · exact hbody

theorem ends_done_skipIf (hrun : runAfter i s.run = s.run) (heffect : effectOf i s.disp = .none) (c : Bool) :
    Ends i s (done (s.skipIf c)) := by
  refine .completes _ ((s.skipIf_run c).trans hrun.symm) ?_
  rw [State.reply_report, State.reply_disp, State.skipIf_disp, heffect]

theorem ends_skipOnKey (hrun : runAfter i s.run = s.run) (heffect : effectOf i s.disp = .none) (x : Reg)
    (cond : Bool → Bool) : Ends i s (skipOnKey i x cond s) := by
  unfold skipOnKey
  split
  · exact .faults _
  · exact ends_done_skipIf hrun heffect _

theorem exec_ends (i : Instr) (s : State) : Ends i s (exec i s) := by
  cases i with
  | seImm _ _ | sneImm _ _ | seReg _ _ | sneReg _ _ => exact ends_done_skipIf rfl rfl _
  | skp x => exact ends_skipOnKey rfl rfl x fun held => held
  | sknp x => exact ends_skipOnKey rfl rfl x fun held => !held
  | call nnn =>
    rw [exec, execCall, callTo]
    split
    · exact .completes _ rfl rfl
    · exact .faults _
  | ret =>
    rw [exec, execRet, returnFrom]
    split
    · exact .completes _ rfl rfl
    · exact .faults _
  | drw _ _ _ | ldBVx _ | ldMemVx _ | ldVxMem _ =>
    simp only [exec, execDrw, execLdBVx, execLdMemVx, execLdVxMem]
    exact ends_checkRange (.completes _ rfl rfl)
  | _ => exact .completes _ rfl rfl

/-- What a next state of an instruction is: the fault's, or one with the instruction's run state and effect. -/
theorem exec_cases {t : State} (h : exec i s = .next t) :
    (∃ e, t = s.raise e (s.pc - 2) (some (encode i))) ∨
    (t.run = runAfter i s.run ∧ t.report = some (.ok (effectOf i t.disp))) := by
  have hends : Ends i s (.next t) := h ▸ exec_ends i s
  cases hends with
  | faults e => exact Or.inl ⟨e, rfl⟩
  | completes _ hrun hreport => exact Or.inr ⟨hrun, hreport⟩

end

/-- Settles O54: an instruction that does not fault completes with its effect. -/
theorem effectOfEachInstruction : Obligations.EffectOfEachInstruction := by
  intro i s t _ h hnofault
  obtain ⟨e, rfl⟩ | ⟨-, hreport⟩ := exec_cases h
  · exact absurd rfl (hnofault _)
  · refine ⟨?redraw, ?awaitKey, fun hother => ?none⟩
    case redraw =>
      rintro ⟨x, y, n, rfl | rfl⟩
      · exact hreport
      · exact hreport
    case awaitKey =>
      rintro ⟨x, rfl⟩
      exact hreport
    case none => rw [hreport, effectOf_eq_none hother]

/-! ### What can stop the machine -/

theorem exists_engineStep_eq_next (s : State) : ∃ t, engineStep s = .next t := by
  obtain ⟨-, -, h⟩ | ⟨op, e, -, -, -, h⟩ | ⟨op, i, -, -, -, h⟩ | ⟨r, -, h⟩ | ⟨f, -, h⟩ := engineStep_cases s
  · exact ⟨_, h⟩
  · exact ⟨_, h⟩
  · exact h ▸ (exec_ends i s.advance).exists_next
  · exact ⟨_, h⟩
  · exact ⟨_, h⟩

/-- An operation answers a next state, or it is a load that fails (70_reset_and_hazards.md R183). -/
theorem applyOp_cases (op : HostOp) (s : State) :
    (∃ t, applyOp op s = .next t) ∨
    ∃ file e, op = .new file ∧ loadFile file = .error e ∧ applyOp op s = .fault (.loadFailed e) := by
  cases op with
  | step => exact Or.inl (exists_engineStep_eq_next s)
  | decrementTimers | setKeypad _ | deliverKey _ => exact Or.inl ⟨_, rfl⟩
  | new file =>
    cases hl : loadFile file with
    | ok b => exact Or.inl ⟨_, reload_ok hl⟩
    | error e => exact Or.inr ⟨file, e, rfl, hl, reload_error hl⟩

/-- A step answers a next state, or it is a load that fails, or a call that the host must not make (R89). -/
theorem step_outcomes (s : State) :
    (∃ t, step s = .next t) ∨
    (∃ file rest e, s.issued = .new file :: rest ∧ loadFile file = .error e ∧ step s = .fault (.loadFailed e)) ∨
    ∃ op rest, s.issued = op :: rest ∧ op.dutiful s = false ∧ step s = .refused (.hostDuty op) := by
  obtain ⟨-, -, h⟩ | ⟨-, -, h⟩ | ⟨op, rest, hi, -, h⟩ | ⟨op, rest, hi, hd, h⟩ := step_cases s
  · exact Or.inl (h ▸ exists_engineStep_eq_next s)
  · exact Or.inl ⟨s, h⟩
  · obtain ⟨t, ha⟩ | ⟨file, e, rfl, hl, ha⟩ := applyOp_cases op { s with issued := rest }
    · exact Or.inl ⟨t, h.trans ha⟩
    · exact Or.inr (Or.inl ⟨file, rest, e, hi, hl, h.trans ha⟩)
  · exact Or.inr (Or.inr ⟨op, rest, hi, hd, h⟩)

/-- Settles O14: every instruction ends with a next state, and a step without one is a failed load or a breach of duty. -/
theorem onlyAFailedLoadStopsTheMachine : Obligations.OnlyAFailedLoadStopsTheMachine := by
  refine ⟨fun i s => (exec_ends i s).exists_next, fun s => ?_⟩
  obtain ⟨t, h⟩ | ⟨file, rest, e, hi, hl, h⟩ | ⟨op, rest, hi, hd, h⟩ := step_outcomes s
  · rw [h]
    exact ⟨nofun, nofun⟩
  · rw [h]
    exact ⟨nofun, fun r hr => ⟨file, rest, e, hi, hl, (Host.Outcome.fault.inj hr).symm⟩⟩
  · rw [h]
    exact ⟨fun r hr => ⟨op, rest, hi, hd, (Host.Outcome.refused.inj hr).symm⟩, nofun⟩

/-! ### The report agrees with the run state -/

@[simp] theorem State.decrementTimers_run (s : State) : s.decrementTimers.run = s.run := by
  unfold State.decrementTimers; split <;> rfl
@[simp] theorem State.decrementTimers_report (s : State) : s.decrementTimers.report = s.report := by
  unfold State.decrementTimers; split <;> rfl
@[simp] theorem State.setKeypad_run (s : State) (m : Word) : (s.setKeypad m).run = s.run := by
  unfold State.setKeypad; split <;> rfl
@[simp] theorem State.setKeypad_report (s : State) (m : Word) : (s.setKeypad m).report = s.report := by
  unfold State.setKeypad; split <;> rfl

section
variable {s t : State}

theorem State.reportAgrees_congr (hrun : t.run = s.run) (hreport : t.report = s.report) (h : s.reportAgrees) :
    t.reportAgrees := by
  rw [State.reportAgrees, hrun, hreport]
  exact h

theorem State.reportAgrees_of_running (h : s.run = .running) : s.reportAgrees := by
  rw [State.reportAgrees, h]
  exact ⟨nofun, nofun⟩

theorem State.reportAgrees_of_awaiting {r : Reg} (h : s.run = .awaitingKey r) (hreport : s.report = some (.ok .awaitKey)) :
    s.reportAgrees := by
  rw [State.reportAgrees, h]
  exact ⟨fun _ _ => hreport, nofun⟩

theorem State.reportAgrees_of_faulted {f : FaultRecord} (h : s.run = .faulted f)
    (hreport : s.report = some (.err f.error)) : s.reportAgrees := by
  rw [State.reportAgrees, h]
  exact ⟨nofun, fun _ hf => RunState.faulted.inj hf ▸ hreport⟩

theorem State.reportAgrees_raise (s : State) (e : ExecutionError) (fpc : Word) (op : Option Word) :
    (s.raise e fpc op).reportAgrees :=
  State.reportAgrees_of_faulted rfl rfl

theorem exec_reportAgrees {i : Instr} (hr : s.run = .running) (h : exec i s = .next t) : t.reportAgrees := by
  obtain ⟨e, rfl⟩ | ⟨hrun, hreport⟩ := exec_cases h
  · exact State.reportAgrees_raise s _ _ _
  · by_cases hwait : ∃ x, i = .ldVxK x
    · obtain ⟨x, rfl⟩ := hwait
      exact State.reportAgrees_of_awaiting hrun hreport
    · push Not at hwait
      exact State.reportAgrees_of_running (hrun.trans ((runAfter_eq_self hwait _).trans hr))

/-- The engine cycle always leaves a report that agrees, since it reports anew. -/
theorem engineStep_reportAgrees (h : engineStep s = .next t) : t.reportAgrees := by
  obtain ⟨-, -, he⟩ | ⟨op, e, -, -, -, he⟩ | ⟨op, i, hr, -, -, he⟩ | ⟨r, hr, he⟩ | ⟨f, hr, he⟩ := engineStep_cases s
  · exact Host.Outcome.next.inj (he.symm.trans h) ▸ State.reportAgrees_raise s _ _ _
  · exact Host.Outcome.next.inj (he.symm.trans h) ▸ State.reportAgrees_raise s.advance _ _ _
  · exact exec_reportAgrees (s := s.advance) hr (he.symm.trans h)
  · exact Host.Outcome.next.inj (he.symm.trans h) ▸ State.reportAgrees_of_awaiting hr rfl
  · exact Host.Outcome.next.inj (he.symm.trans h) ▸ State.reportAgrees_of_faulted hr rfl

theorem deliverKey_reportAgrees (ha : s.reportAgrees) (v : Byte) : (s.deliverKey v).reportAgrees := by
  by_cases hw : ∃ r, s.run = .awaitingKey r
  · obtain ⟨r, hr⟩ := hw
    rw [deliverKey_awaiting hr]
    exact State.reportAgrees_of_running rfl
  · push Not at hw
    rwa [deliverKey_stray hw]

theorem reload_reportAgrees {file : Option (List Byte)} (h : reload file s = .next t) : t.reportAgrees := by
  cases hl : loadFile file with
  | error e =>
    rw [reload_error hl] at h
    cases h
  | ok b =>
    obtain ⟨m, rfl⟩ := loadFile_ok hl
    rw [reload_ok hl] at h
    exact Host.Outcome.next.inj h ▸ State.reportAgrees_of_running rfl

theorem applyOp_reportAgrees {op : HostOp} (ha : s.reportAgrees) (h : applyOp op s = .next t) : t.reportAgrees := by
  cases op with
  | step => exact engineStep_reportAgrees h
  | decrementTimers =>
    exact Host.Outcome.next.inj h ▸ State.reportAgrees_congr s.decrementTimers_run s.decrementTimers_report ha
  | setKeypad m =>
    exact Host.Outcome.next.inj h ▸ State.reportAgrees_congr (s.setKeypad_run m) (s.setKeypad_report m) ha
  | deliverKey v => exact Host.Outcome.next.inj h ▸ deliverKey_reportAgrees ha v
  | new file => exact reload_reportAgrees h

end

/-- Settles O59: whatever enters a wait or a fault reports it, and what leaves the run state leaves the report. -/
theorem stepKeepsReportAgreeing : Obligations.StepKeepsReportAgreeing := by
  intro s t ha h
  obtain ⟨-, -, he⟩ | ⟨-, -, he⟩ | ⟨op, rest, -, -, he⟩ | ⟨op, rest, -, -, he⟩ := step_cases s
  · exact engineStep_reportAgrees (he.symm.trans h)
  · exact Host.Outcome.next.inj (he.symm.trans h) ▸ ha
  · exact applyOp_reportAgrees (s := { s with issued := rest }) ha (he.symm.trans h)
  · exact nomatch he.symm.trans h

end Sys2Proof.Machine
end

section
/-! The run state from one operation to the next: the table of R88 (40_engine_cycle.md). -/

namespace Sys2Proof.Machine

theorem decodeWord_eq_ok_iff {w : Word} {i : Instr} (hwf : i.wf = true) : decodeWord w = .ok i ↔ w = encode i :=
  ⟨fun h => (encodes_of_decodeWord h).1.symm, fun h => h ▸ decodeWord_encode hwf⟩

section
variable {s t : State}

/-- Only where the word fetched decodes to the instruction is it the instruction's. -/
theorem fetchWord_ne_encode {op : Word} {i : Instr} (hwf : i.wf = true) (hf : s.fetchWord = some op)
    (hd : decodeWord op ≠ .ok i) : s.fetchWord ≠ some (encode i) := fun h =>
  hd ((decodeWord_eq_ok_iff hwf).2 (Option.some.inj (hf.symm.trans h)))

/-- A step in Running: it runs on, it waits on `LD Vx, K`, or it faults on another word (R88). -/
theorem engineStep_running_cases (hr : s.run = .running) (h : engineStep s = .next t) :
    (t.run = .running ∧ ∀ x, s.fetchWord ≠ some (encode (.ldVxK x))) ∨
    (∃ x, s.fetchWord = some (encode (.ldVxK x)) ∧
      t = { s with pc := s.pc + 2, run := .awaitingKey x, report := some (.ok .awaitKey) }) ∨
    ∃ f, t.run = .faulted f ∧ ∀ x, s.fetchWord ≠ some (encode (.ldVxK x)) := by
  obtain ⟨-, hf, he⟩ | ⟨op, e, -, hf, hd, he⟩ | ⟨op, i, -, hf, hd, he⟩ | ⟨r, hr', -⟩ | ⟨f, hr', -⟩ := engineStep_cases s
  · obtain rfl := Host.Outcome.next.inj (he.symm.trans h)
    exact Or.inr (Or.inr ⟨_, rfl, fun x => by rw [hf]; exact nofun⟩)
  · obtain rfl := Host.Outcome.next.inj (he.symm.trans h)
    exact Or.inr (Or.inr ⟨_, rfl, fun x => fetchWord_ne_encode rfl hf (by rw [hd]; exact nofun)⟩)
  · by_cases hwait : ∃ x, i = .ldVxK x
    · obtain ⟨x, rfl⟩ := hwait
      obtain rfl := Host.Outcome.next.inj (he.symm.trans h)
      rw [(decodeWord_eq_ok_iff rfl).1 hd] at hf
      exact Or.inr (Or.inl ⟨x, hf, rfl⟩)
    · push Not at hwait
      have hword : ∀ x, s.fetchWord ≠ some (encode (.ldVxK x)) := fun x =>
        fetchWord_ne_encode rfl hf (by rw [hd]; exact fun h => hwait x (Except.ok.inj h))
      obtain ⟨e, rfl⟩ | ⟨hrun, -⟩ := exec_cases (he.symm.trans h)
      · exact Or.inr (Or.inr ⟨_, rfl, hword⟩)
      · exact Or.inl ⟨hrun.trans ((runAfter_eq_self hwait _).trans hr), hword⟩
  · exact nomatch hr.symm.trans hr'
  · exact nomatch hr.symm.trans hr'

theorem decrementTimers_faulted {f : FaultRecord} (hr : s.run = .faulted f) : s.decrementTimers = s := by
  rw [State.decrementTimers, hr]
  rfl

theorem setKeypad_faulted {f : FaultRecord} (hr : s.run = .faulted f) (m : Word) : s.setKeypad m = s := by
  rw [State.setKeypad, hr]
  rfl

theorem setKeypad_awaiting {r : Reg} (hr : s.run = .awaitingKey r) (m : Word) : s.setKeypad m = { s with keypad := m } := by
  rw [State.setKeypad, hr]
  rfl

/-- In Faulted an operation other than `new` changes nothing but the report, and that only if it is a step (R84, R86, R87,
60_exceptions.md R171). -/
theorem applyOp_faulted {op : HostOp} {f : FaultRecord} (hr : s.run = .faulted f) (hop : ∀ file, op ≠ .new file) :
    applyOp op s = .next { s with report := if op = .step then some (.err f.error) else s.report } := by
  cases op with
  | step => exact engineStep_faulted hr
  | decrementTimers => rw [applyOp, decrementTimers_faulted hr]; rfl
  | setKeypad m => rw [applyOp, setKeypad_faulted hr]; rfl
  | deliverKey v =>
    rw [applyOp, deliverKey_stray (by rw [hr]; exact nofun)]
    rfl
  | new file => exact absurd rfl (hop file)

/-- No operation but a step or `new` takes the machine out of Running. -/
theorem applyOp_running {op : HostOp} (hr : s.run = .running) (hop : ∀ file, op ≠ .new file) (hstep : op ≠ .step)
    (h : applyOp op s = .next t) : t.run = .running := by
  cases op with
  | step => exact absurd rfl hstep
  | decrementTimers => exact Host.Outcome.next.inj h ▸ s.decrementTimers_run.trans hr
  | setKeypad m => exact Host.Outcome.next.inj h ▸ (s.setKeypad_run m).trans hr
  | deliverKey v =>
    obtain rfl := Host.Outcome.next.inj h
    rwa [deliverKey_stray (by rw [hr]; exact nofun)]
  | new file => exact absurd rfl (hop file)

end

/-- Settles O11: a step in Running by its cases, every other row by the one operation it names. -/
theorem runStateTransitions : Obligations.RunStateTransitions := by
  intro s t op hnew h
  refine ⟨?step, fun hr hstep => applyOp_running hr hnew hstep h, ?stray, fun r hr => ?awaiting, fun f hr => ?faulted⟩
  case step =>
    rintro hr rfl
    exact engineStep_running_cases hr h
  case stray =>
    rintro hr v rfl
    exact (Host.Outcome.next.inj h).symm.trans (deliverKey_stray (by rw [hr]; exact nofun) v)
  case awaiting =>
    refine ⟨?_, ?_, ?_, ?_⟩
    · rintro rfl
      exact (Host.Outcome.next.inj ((engineStep_awaiting hr).symm.trans h)).symm
    · rintro v rfl
      exact (Host.Outcome.next.inj h).symm.trans (deliverKey_awaiting hr v)
    · rintro m rfl
      exact (Host.Outcome.next.inj h).symm.trans (setKeypad_awaiting hr m)
    · rintro rfl
      obtain rfl := Host.Outcome.next.inj h
      exact ⟨rfl, s.decrementTimers_run.trans hr⟩
  case faulted =>
    obtain rfl := Host.Outcome.next.inj ((applyOp_faulted hr hnew).symm.trans h)
    rfl

end Sys2Proof.Machine
end

section
/-! The queue of issued operations (40_engine_cycle.md R81; log entry 2). No operation reads it, so a machine that takes
operations off its queue does what applying them one by one does. -/

namespace Sys2Proof.Machine

/-- s with another queue. -/
def State.withIssued (s : State) (ops : List HostOp) : State := { s with issued := ops }

theorem State.withIssued_self {s : State} {ops : List HostOp} (h : s.issued = ops) : s.withIssued ops = s := h ▸ rfl

/-! ### Every operation carries the queue through -/

section
variable (s : State) (ops : List HostOp)

theorem done_skipIf_withIssued (c : Bool) :
    done ((s.withIssued ops).skipIf c) = mapNext (·.withIssued ops) (done (s.skipIf c)) := by
  cases c <;> rfl

theorem callTo_withIssued (i : Instr) (target : Word) :
    callTo i target (s.withIssued ops) = mapNext (·.withIssued ops) (callTo i target s) := by
  rw [callTo, callTo, apply_dite (mapNext _)]
  rfl

theorem returnFrom_withIssued (i : Instr) :
    returnFrom i (s.withIssued ops) = mapNext (·.withIssued ops) (returnFrom i s) := by
  rw [returnFrom, returnFrom, apply_dite (mapNext _)]
  rfl

theorem checkRange_withIssued (i : Instr) (addr : Word) (n : Nat) {body : State → Answer}
    (hbody : body (s.withIssued ops) = mapNext (·.withIssued ops) (body s)) :
    checkRange i addr n (s.withIssued ops) body = mapNext (·.withIssued ops) (checkRange i addr n s body) := by
  rw [checkRange, checkRange, apply_ite (mapNext _), ← hbody]
  rfl

theorem skipOnKey_withIssued (i : Instr) (x : Reg) (cond : Bool → Bool) :
    skipOnKey i x cond (s.withIssued ops) = mapNext (·.withIssued ops) (skipOnKey i x cond s) := by
  rw [skipOnKey, skipOnKey, apply_ite (mapNext _), ← done_skipIf_withIssued]
  rfl

theorem exec_withIssued (i : Instr) : exec i (s.withIssued ops) = mapNext (·.withIssued ops) (exec i s) := by
  cases i with
  | seImm _ _ | sneImm _ _ | seReg _ _ | sneReg _ _ => exact done_skipIf_withIssued s ops _
  | skp x => exact skipOnKey_withIssued s ops _ x fun held => held
  | sknp x => exact skipOnKey_withIssued s ops _ x fun held => !held
  | call nnn => exact callTo_withIssued s ops _ _
  | ret => exact returnFrom_withIssued s ops _
  | drw _ _ _ | ldBVx _ | ldMemVx _ | ldVxMem _ =>
    simp only [exec, execDrw, execLdBVx, execLdMemVx, execLdVxMem]
    exact checkRange_withIssued s ops _ _ _ rfl
  | _ => rfl

theorem engineStep_withIssued : engineStep (s.withIssued ops) = mapNext (·.withIssued ops) (engineStep s) := by
  obtain ⟨hr, hf, h⟩ | ⟨op, e, hr, hf, hd, h⟩ | ⟨op, i, hr, hf, hd, h⟩ | ⟨r, hr, h⟩ | ⟨f, hr, h⟩ := engineStep_cases s
  · rw [h, engineStep_no_fetch (s := s.withIssued ops) hr hf]
    rfl
  · rw [h, engineStep_fetched (s := s.withIssued ops) hr hf, runWord_error hd]
    rfl
  · rw [h, engineStep_fetched (s := s.withIssued ops) hr hf, runWord_ok hd]
    exact exec_withIssued s.advance ops i
  · rw [h, engineStep_awaiting (s := s.withIssued ops) hr]
    rfl
  · rw [h, engineStep_faulted (s := s.withIssued ops) hr]
    rfl

theorem decrementTimers_withIssued : (s.withIssued ops).decrementTimers = s.decrementTimers.withIssued ops := by
  rw [State.decrementTimers, State.decrementTimers, apply_ite (State.withIssued · ops)]
  rfl

theorem setKeypad_withIssued (m : Word) : (s.withIssued ops).setKeypad m = (s.setKeypad m).withIssued ops := by
  rw [State.setKeypad, State.setKeypad, apply_ite (State.withIssued · ops)]
  rfl

theorem deliverKey_withIssued (v : Byte) : (s.withIssued ops).deliverKey v = (s.deliverKey v).withIssued ops := by
  by_cases hw : ∃ r, s.run = .awaitingKey r
  · obtain ⟨r, hr⟩ := hw
    rw [deliverKey_awaiting hr, deliverKey_awaiting (s := s.withIssued ops) hr]
    rfl
  · push Not at hw
    rw [deliverKey_stray hw, deliverKey_stray (s := s.withIssued ops) hw]

theorem reload_withIssued (file : Option (List Byte)) :
    reload file (s.withIssued ops) = mapNext (·.withIssued ops) (reload file s) := by
  cases hl : loadFile file with
  | ok b =>
    rw [reload_ok hl, reload_ok hl]
    rfl
  | error e =>
    rw [reload_error hl, reload_error hl]
    rfl

theorem applyOp_withIssued (op : HostOp) :
    applyOp op (s.withIssued ops) = mapNext (·.withIssued ops) (applyOp op s) := by
  cases op with
  | step => exact engineStep_withIssued s ops
  | decrementTimers => exact congrArg Host.Outcome.next (decrementTimers_withIssued s ops)
  | setKeypad m => exact congrArg Host.Outcome.next (setKeypad_withIssued s ops m)
  | deliverKey v => exact congrArg Host.Outcome.next (deliverKey_withIssued s ops v)
  | new file => exact reload_withIssued s ops file

theorem dutiful_withIssued (op : HostOp) : op.dutiful (s.withIssued ops) = op.dutiful s := by
  cases op <;> rfl

end

/-- No operation writes the queue either. -/
theorem applyOp_issued {op : HostOp} {s t : State} (h : applyOp op s = .next t) : t.issued = s.issued := by
  have hcarried : applyOp op s = mapNext (·.withIssued s.issued) (applyOp op s) := applyOp_withIssued s s.issued op
  rw [h] at hcarried
  have hsame : t = t.withIssued s.issued := Host.Outcome.next.inj hcarried
  rw [hsame]
  rfl

/-! ### A run over the queue -/

section
variable {M : Host.Core} {k : Nat} {s : M.State}

theorem run_succ_of_next {t : M.State} (h : M.step s = .next t) : M.run (k + 1) s = M.run k t := by
  rw [Host.Core.run, h]

theorem run_succ_of_fault {r : M.Fault} (h : M.step s = .fault r) : M.run (k + 1) s = .fault r := by
  rw [Host.Core.run, h]

theorem run_succ_of_refused {r : M.Refusal} (h : M.step s = .refused r) : M.run (k + 1) s = .refused r := by
  rw [Host.Core.run, h]

end

/-- A step takes the oldest operation and leaves the others in the queue. -/
theorem step_withIssued_cons {op : HostOp} {s : State} (rest : List HostOp) (hd : op.dutiful s = true) :
    step (s.withIssued (op :: rest)) = mapNext (·.withIssued rest) (applyOp op s) := by
  rw [step_issued rfl ((dutiful_withIssued s _ op).trans hd)]
  exact applyOp_withIssued s rest op

/-- Induction on the operations: the state that the first leaves has an empty queue again, to which the rest are issued. -/
theorem run_withIssued {ops : List HostOp} {s : State} (hi : s.issued = []) (hd : dutifulAll ops s) :
    Host.Core.run Sys2Proof.core ops.length (s.withIssued ops) = applyAll ops s := by
  induction ops generalizing s with
  | nil => exact congrArg Host.Outcome.next (State.withIssued_self hi)
  | cons op rest ih =>
    obtain ⟨hop, hrest⟩ := hd
    have hstep : step (s.withIssued (op :: rest)) = mapNext (·.withIssued rest) (applyOp op s) :=
      step_withIssued_cons rest hop
    rw [applyAll]
    cases h : applyOp op s with
    | next t =>
      rw [h] at hstep
      exact (run_succ_of_next hstep).trans (ih ((applyOp_issued h).trans hi) (hrest t h))
    | fault r =>
      rw [h] at hstep
      exact run_succ_of_fault hstep
    | refused r =>
      rw [h] at hstep
      exact run_succ_of_refused hstep

theorem run_issued {s : State} (hd : dutifulAll s.issued { s with issued := [] }) :
    Host.Core.run Sys2Proof.core s.issued.length s = applyAll s.issued { s with issued := [] } :=
  run_withIssued (s := { s with issued := [] }) rfl hd

/-- Settles O7: the run over the queue, and what a step is when nothing is issued. -/
theorem operationsAreTakenInTheOrderIssued : Obligations.OperationsAreTakenInTheOrderIssued :=
  ⟨fun _ hd => run_issued hd, fun _ hi hf => step_none_issued hi hf, fun _ hi hf => step_faulted_idle hf hi⟩

/-! ### Operations given to a faulted block -/

theorem applyAll_faulted {f : FaultRecord} {ops : List HostOp} {s : State} (hr : s.run = .faulted f)
    (hnew : ∀ file, HostOp.new file ∉ ops) :
    applyAll ops s = .next { s with report := if HostOp.step ∈ ops then some (.err f.error) else s.report } := by
  induction ops generalizing s with
  | nil => rfl
  | cons op rest ih =>
    simp only [List.mem_cons, not_or] at hnew
    have hop : ∀ file, op ≠ .new file := fun file h => (hnew file).1 h.symm
    simp only [applyAll, applyOp_faulted hr hop]
    rw [ih (by exact hr) fun file => (hnew file).2]
    by_cases hrest : HostOp.step ∈ rest
    · simp [hrest]
    · simp [hrest, eq_comm]

/-- The timers and the mask are the host's to move in every state (R89, D20). -/
theorem dutifulAll_of_timers_and_mask {ops : List HostOp} (s : State)
    (h : ∀ op ∈ ops, op = .decrementTimers ∨ ∃ m, op = .setKeypad m) : dutifulAll ops s := by
  induction ops generalizing s with
  | nil => trivial
  | cons op rest ih =>
    obtain ⟨hop, hrest⟩ := List.forall_mem_cons.1 h
    refine ⟨?_, fun t _ => ih t hrest⟩
    obtain rfl | ⟨m, rfl⟩ := hop
    · rfl
    · rfl

/-- Settles O10: by induction on the operations; the machine's run over its queue is such a sequence without a step. -/
theorem faultedIsAbsorbing : Obligations.FaultedIsAbsorbing := by
  refine ⟨fun _ _ _ hr hnew => applyAll_faulted hr hnew, fun s hf hops => ?_, fun _ hf hi => step_faulted_idle hf hi⟩
  obtain ⟨f, hr⟩ := s.run.isFaulted_eq_true_iff.1 hf
  have hnew : ∀ file, HostOp.new file ∉ s.issued := fun file hmem => by simpa using hops _ hmem
  have hstep : HostOp.step ∉ s.issued := fun hmem => by simpa using hops _ hmem
  have hrest : applyAll s.issued { s with issued := [] } = .next { s with issued := [] } := by
    rw [applyAll_faulted (s := { s with issued := [] }) hr hnew, if_neg hstep]
  exact (run_issued (dutifulAll_of_timers_and_mask _ hops)).trans hrest

end Sys2Proof.Machine
end

section
/-! Control flow (41_control_flow.md): the frames of its updates, then what each transfer of control and each register skip
leaves, in the order JP, the skips, CALL and RET, and the CALL that its RET undoes. -/

namespace Sys2Proof.Machine

/-! ### Frames -/

theorem frame_jump (k : Touched) (s : State) (target : Word) : Frame k s (s.jump target) where
  __ := Frame.refl k s

theorem frame_advance (k : Touched) (s : State) : Frame k s s.advance where
  __ := Frame.refl k s

theorem frame_skipIf (k : Touched) (s : State) (c : Bool) : Frame k s (s.skipIf c) := by
  cases c with
  | false => exact Frame.refl k s
  | true => exact frame_advance k s

theorem frame_SP {k : Touched} (hk : k.sp = true) (s : State) (n : Fin 17) : Frame k s { s with SP := n } where
  __ := Frame.refl k s
  sp h := absurd (h.symm.trans hk) Bool.false_ne_true

theorem frame_setSlot {k : Touched} {j : Nat} (hk : j ∈ k.slots) (hj : j < 16) (s : State) (w : Word) :
    Frame k s { s with stack := s.stack.set j w } where
  __ := Frame.refl k s
  slots q hq := Vector.getElem_set_ne hj q.isLt fun h => hq (h ▸ hk)

/-! ### Jumps and skips -/

theorem done_jump_spec (s : State) (target : Word) :
    ∃ t, done (s.jump target) = .next t ∧ t.pc = target ∧ t.report = some (.ok .none) ∧ Frame {} s t :=
  ⟨_, done_eq _, rfl, rfl, (frame_jump _ s target).trans (frame_reply _ _ .none)⟩

/-- `zext_16(nnn) + zext_16(V[0])` is at most 0x10FE, so the sum does not wrap (R108). -/
theorem toNat_zextImm_add_zextByte (nnn : Imm12) (b : Byte) :
    (zextImm nnn + zextByte b).toNat = nnn.toNat + b.toNat := by
  rw [BitVec.toNat_add, toNat_zextImm, toNat_zextByte]
  omega

/-- Settles O15: both are jumps, and the target of each is exact. -/
theorem jumpResults : Obligations.JumpResults := by
  intro nnn s
  constructor
  · obtain ⟨t, hexec, hpc, hrest⟩ := done_jump_spec s (zextImm nnn)
    exact ⟨t, hexec, by rw [hpc, toNat_zextImm], hrest⟩
  · obtain ⟨t, hexec, hpc, hrest⟩ := done_jump_spec s (zextImm nnn + zextByte (s.getV 0))
    exact ⟨t, hexec, by rw [hpc, toNat_zextImm_add_zextByte], hrest⟩

theorem done_skipIf_spec (s : State) (c : Bool) :
    ∃ t, done (s.skipIf c) = .next t ∧ t.pc = (if c then s.pc + 2 else s.pc) ∧ t.report = some (.ok .none) ∧
      Frame {} s t :=
  ⟨_, done_eq _, s.skipIf_pc c, rfl, (frame_skipIf _ s c).trans (frame_reply _ _ .none)⟩

theorem done_skipIf_beq (s : State) (a b : Byte) :
    ∃ t, done (s.skipIf (a == b)) = .next t ∧ t.pc = (if a = b then s.pc + 2 else s.pc) ∧
      t.report = some (.ok .none) ∧ Frame {} s t := by
  simpa only [beq_iff_eq] using done_skipIf_spec s (a == b)

theorem done_skipIf_bne (s : State) (a b : Byte) :
    ∃ t, done (s.skipIf (a != b)) = .next t ∧ t.pc = (if a = b then s.pc else s.pc + 2) ∧
      t.report = some (.ok .none) ∧ Frame {} s t := by
  simpa only [bne_iff_ne, ne_eq, ite_not] using done_skipIf_spec s (a != b)

/-- Settles O19: each is a skip on two bytes being equal, or on their being unequal. -/
theorem skipResults : Obligations.SkipResults := fun _ _ _ s =>
  ⟨done_skipIf_beq s _ _, done_skipIf_bne s _ _, done_skipIf_beq s _ _, done_skipIf_bne s _ _⟩

/-! ### Call and return -/

theorem exec_call_spec {s : State} (nnn : Imm12) (hroom : s.SP.val < 16) :
    ∃ t, exec (.call nnn) s = .next t ∧ t.pc = zextImm nnn ∧ t.SP.val = s.SP.val + 1 ∧
      (∀ j : Fin 16, j.val = s.SP.val → t.stack[j] = s.pc) ∧ t.report = some (.ok .none) ∧
      ∀ k : Touched, s.SP.val ∈ k.slots → k.sp = true → Frame k s t := by
  refine ⟨_, exec_call_room nnn hroom, rfl, rfl, fun j hj => ?slot, rfl, fun k hslot hsp => ?frame⟩
  case slot =>
    obtain ⟨j, _⟩ := j
    obtain rfl : j = s.SP.val := hj
    exact Vector.getElem_set_self hroom
  case frame =>
    have hpushed := (frame_setSlot hslot hroom s s.pc).trans (frame_SP hsp _ ⟨s.SP.val + 1, by omega⟩)
    exact (hpushed.trans (frame_jump k _ (zextImm nnn))).trans (frame_reply k _ .none)

theorem exec_ret_spec {s : State} (hsome : 0 < s.SP.val) :
    ∃ t, exec .ret s = .next t ∧ t.SP.val = s.SP.val - 1 ∧ (∀ j : Fin 16, j.val = s.SP.val - 1 → t.pc = s.stack[j]) ∧
      t.report = some (.ok .none) ∧ ∀ k : Touched, k.sp = true → Frame k s t := by
  refine ⟨_, exec_ret_some hsome, rfl, fun j hj => ?pc, rfl, fun k hsp => ?frame⟩
  case pc =>
    obtain ⟨j, _⟩ := j
    obtain rfl : j = s.SP.val - 1 := hj
    rfl
  case frame => exact ((frame_SP hsp s _).trans (frame_jump k _ _)).trans (frame_reply k _ .none)

/-- Settles O16: the push with room on the stack, or the error of a full one. -/
theorem callResult : Obligations.CallResult := by
  refine fun nnn s => ⟨fun hroom => ?_, fun hfull => callTo_full s (.call nnn) (zextImm nnn) hfull⟩
  obtain ⟨t, hexec, hpc, hsp, hslot, hreport, hframe⟩ := exec_call_spec nnn hroom
  exact ⟨t, hexec, by rw [hpc, toNat_zextImm], hsp, hslot, hreport, hframe _ (List.mem_singleton.2 rfl) rfl⟩

/-- Settles O17: the pop of an entry, or the error of an empty stack. -/
theorem retResult : Obligations.RetResult := by
  refine fun s => ⟨fun hsome => ?_, fun hempty => returnFrom_empty s .ret hempty⟩
  obtain ⟨t, hexec, hsp, hpc, hreport, hframe⟩ := exec_ret_spec hsome
  exact ⟨t, hexec, hsp, hpc, hreport, hframe _ rfl⟩

/-! ### A call and its return -/

theorem State.fetchWord_congr {s t : State} (hpc : t.pc = s.pc) (hbytes : ∀ a, t.readByte a = s.readByte a) :
    t.fetchWord = s.fetchWord := by
  simp only [State.fetchWord, hpc, hbytes]

/-- Settles O18: the `CALL` writes no byte, so the `RET` is fetched as it stood, and pops the entry just pushed. -/
theorem callThenRetComesBack : Obligations.CallThenRetComesBack := by
  intro s nnn hrun hissued hroom hcall hret
  obtain ⟨t, hexec, htpc, htsp, htslot, -, htframe⟩ := exec_call_spec (s := s.advance) nnn hroom
  have hst : Frame { slots := [s.SP.val], sp := true } s t :=
    (frame_advance _ s).trans (htframe _ (List.mem_singleton.2 rfl) rfl)
  have htrun : t.run = .running := (hst.run rfl).trans hrun
  have htfetch : t.fetchWord = some (encode .ret) :=
    (State.fetchWord_congr (s := { s with pc := zextImm nnn }) htpc fun a => hst.bytes a List.not_mem_nil).trans hret
  have hstep : step s = .next t := (step_fetched_ok hrun hissued hcall (decodeWord_encode rfl)).trans hexec
  obtain ⟨u, hexec', husp, hupc, hureport, huframe⟩ := exec_ret_spec (s := t.advance) (htsp ▸ Nat.succ_pos _)
  have hstep' : step t = .next u :=
    (step_fetched_ok htrun (hst.issued.trans hissued) htfetch (decodeWord_encode rfl)).trans hexec'
  have hsu : Frame { slots := [s.SP.val], sp := true } s u := hst.trans ((frame_advance _ t).trans (huframe _ rfl))
  have hpopped : t.SP.val - 1 = s.SP.val := Nat.sub_eq_of_eq_add htsp
  have hsp : u.SP = s.SP := Fin.ext (husp.trans hpopped)
  have hpc : u.pc = s.pc + 2 := (hupc ⟨s.SP.val, hroom⟩ hpopped.symm).trans (htslot _ rfl)
  exact ⟨t, u, hstep, htpc, hstep', hpc, hsp, (hsu.run rfl).trans hrun, hureport, { hsu with sp := fun _ => hsp }⟩

end Sys2Proof.Machine
end

section
/-! Loads, logic and arithmetic (42_alu.md R112-R120): the instructions that write their destination alone, then the flag-setting
ones with x other than F; with x = F they are `flagIsWrittenLast`. -/

namespace Sys2Proof.Machine

/-! ### One register written, no flag -/

/-- How every instruction ends that writes one register and nothing else. -/
theorem done_setV_spec (x : Reg) (v : Byte) (s : State) :
    ∃ t, done (s.setV x v) = .next t ∧ t.getV x = v ∧ t.pc = s.pc ∧ t.report = some (.ok .none) ∧
      Frame { regs := [x] } s t :=
  ⟨_, done_eq _, State.getV_setV_same s x v, rfl, rfl,
    (frame_setV (List.mem_singleton.2 rfl) s v).trans (frame_reply _ _ .none)⟩

/-- Settles O21: each writes its destination alone, and `ADD` is modulo 256. -/
theorem immediateResults : Obligations.ImmediateResults := by
  intro x kk s
  constructor
  · exact done_setV_spec x kk s
  · obtain ⟨t, hexec, hval, hrest⟩ := done_setV_spec x (s.getV x + kk) s
    exact ⟨t, hexec, by rw [hval, BitVec.toNat_add], hrest⟩

/-- Settles O22: each writes its destination alone, with the value the operation gives bit by bit. -/
theorem moveAndLogicResults : Obligations.MoveAndLogicResults := by
  intro x y s
  refine ⟨?move, ?or, ?and, ?xor⟩
  case move => exact done_setV_spec x (s.getV y) s
  case or =>
    obtain ⟨t, hexec, hval, hrest⟩ := done_setV_spec x (s.getV x ||| s.getV y) s
    exact ⟨t, hexec, fun b => by rw [hval, BitVec.getLsbD_or], hrest⟩
  case and =>
    obtain ⟨t, hexec, hval, hrest⟩ := done_setV_spec x (s.getV x &&& s.getV y) s
    exact ⟨t, hexec, fun b => by rw [hval, BitVec.getLsbD_and], hrest⟩
  case xor =>
    obtain ⟨t, hexec, hval, hrest⟩ := done_setV_spec x (s.getV x ^^^ s.getV y) s
    exact ⟨t, hexec, fun b => by rw [hval, BitVec.getLsbD_xor], hrest⟩

/-! ### A result and its flag -/

theorem toNat_sub_byte (a b : Byte) : (a - b).toNat = (a.toNat + 256 - b.toNat) % 256 := by
  rw [BitVec.toNat_sub]
  have hb : b.toNat < 2 ^ 8 := b.isLt
  omega

/-- `doneWithFlag_spec` with x other than F: the result stands beside the flag. -/
theorem doneWithFlag_spec_of_ne {x : Reg} (hx : x ≠ VF) (result flag : Byte) (s : State) :
    ∃ t, doneWithFlag x result flag s = .next t ∧ t.getV x = result ∧ t.getV VF = flag ∧
      t.pc = s.pc ∧ t.report = some (.ok .none) ∧ Frame { regs := [x, VF] } s t := by
  obtain ⟨t, hexec, hdest, hflag, hpc, hreport, hframe⟩ := doneWithFlag_spec x result flag s
  exact ⟨t, hexec, hdest hx, hflag, hpc, hreport, hframe _ (by simp) (by simp)⟩

/-- The end that `SUB` and `SUBN` share: a is the minuend of either. -/
theorem doneWithFlag_sub_spec {x : Reg} (hx : x ≠ VF) (a b : Byte) (s : State) :
    ∃ t, doneWithFlag x (a - b) (notBorrowFlag a b) s = .next t ∧
      (t.getV x).toNat = (a.toNat + 256 - b.toNat) % 256 ∧
      t.getV VF = (if a.toNat > b.toNat then 1 else 0) ∧
      t.pc = s.pc ∧ t.report = some (.ok .none) ∧ Frame { regs := [x, VF] } s t := by
  obtain ⟨t, hexec, hdest, hflag, hrest⟩ := doneWithFlag_spec_of_ne hx (a - b) (notBorrowFlag a b) s
  exact ⟨t, hexec, by rw [hdest, toNat_sub_byte], by rw [hflag, notBorrowFlag_eq], hrest⟩

/-- Settles O23: the destination keeps the sum, and the flag is the carry of the exact one. -/
theorem addRegistersResult : Obligations.AddRegistersResult := by
  intro x y s hx
  obtain ⟨t, hexec, hdest, hflag, hrest⟩ :=
    doneWithFlag_spec_of_ne hx (s.getV x + s.getV y) (carryFlag (s.getV x) (s.getV y)) s
  exact ⟨t, hexec, by rw [hdest, BitVec.toNat_add], by rw [hflag, carryFlag_eq], hrest⟩

/-- Settles O24: the two differ in which operand is the minuend. -/
theorem subtractResults : Obligations.SubtractResults := fun x y s hx =>
  ⟨doneWithFlag_sub_spec hx (s.getV x) (s.getV y) s, doneWithFlag_sub_spec hx (s.getV y) (s.getV x) s⟩

end Sys2Proof.Machine
end

section
/-! The index register and the memory instructions in range (43_index_memory.md R130-R136): the frames of the updates, then what
each instruction leaves. -/

namespace Sys2Proof.Machine

/-! ### Frames -/

theorem frame_I {k : Touched} (hk : k.index = true) (s : State) (addr : Word) : Frame k s { s with I := addr } where
  __ := Frame.refl k s
  index h := absurd (h.symm.trans hk) Bool.false_ne_true

theorem mem_span {addr : Word} {n a : Nat} : a ∈ span addr n ↔ addr.toNat ≤ a ∧ a < addr.toNat + n := by
  rw [span, List.mem_map]
  constructor
  · rintro ⟨k, hk, rfl⟩
    have hkn : k < n := List.mem_range.1 hk
    omega
  · rintro ⟨hlo, hhi⟩
    exact ⟨a - addr.toNat, List.mem_range.2 (by omega), by omega⟩

/-- A store that fits changes no byte outside its span (R45). -/
theorem frame_storeBytes {k : Touched} {s : State} {addr : Word} {vs : List Byte} (hc : s.memoryCanonical)
    (hfits : addr.toNat + vs.length ≤ 0x1000) (hk : span addr vs.length ⊆ k.bytes) : Frame k s (s.storeBytes addr vs) where
  __ := Frame.refl k s
  bytes a ha := by
    have hout : ¬ (addr.toNat ≤ a ∧ a < addr.toNat + vs.length) := fun h => ha (hk (mem_span.2 h))
    rw [State.readByte_storeBytes s addr vs hfits hc, if_neg hout]

theorem frame_V {k : Touched} {s : State} {v : Vector Byte 16}
    (hv : ∀ r ∉ k.regs, ({ s with V := v } : State).getV r = s.getV r) : Frame k s { s with V := v } where
  __ := Frame.refl k s
  regs := hv

theorem frame_loadRegs {k : Touched} {x : Reg} (hk : ∀ r ≤ x, r ∈ k.regs) (s : State) (addr : Word) :
    Frame k s (s.loadRegs addr x) :=
  frame_V fun r hr => (State.getV_loadRegs s addr x r).trans (if_neg fun h => hr (hk r h))

/-! ### I written, no flag -/

/-- How every instruction ends that writes I and nothing else. -/
theorem done_setI_spec (addr : Word) (s : State) :
    ∃ t, done { s with I := addr } = .next t ∧ t.I = addr ∧ t.pc = s.pc ∧ t.report = some (.ok .none) ∧
      Frame { index := true } s t :=
  ⟨_, done_eq _, rfl, rfl, rfl, (frame_I rfl s addr).trans (frame_reply _ _ .none)⟩

/-- Settles O29: the address is extended with zeros, so it has its own value. -/
theorem setIndexResult : Obligations.SetIndexResult := by
  intro nnn s
  obtain ⟨t, hexec, hI, hrest⟩ := done_setI_spec (zextImm nnn) s
  exact ⟨t, hexec, by rw [hI, toNat_zextImm], hrest⟩

/-- Settles O30: the sum is that of 16-bit words, and five times a byte fits in one. -/
theorem indexArithmeticResults : Obligations.IndexArithmeticResults := by
  intro x s
  constructor
  · obtain ⟨t, hexec, hI, hrest⟩ := done_setI_spec (s.I + zextByte (s.getV x)) s
    exact ⟨t, hexec, by rw [hI, BitVec.toNat_add, toNat_zextByte], hrest⟩
  · obtain ⟨t, hexec, hI, hrest⟩ := done_setI_spec (glyphAddr (s.getV x)) s
    exact ⟨t, hexec, by rw [hI, toNat_glyphAddr], hrest⟩

/-! ### Stores and loads in range -/

/-- The digits of a byte are below 256, so none is cut off (R133). -/
theorem toNat_getD_bcdDigits (v : Byte) :
    ((bcdDigits v).getD 0 0).toNat = v.toNat / 100 ∧ ((bcdDigits v).getD 1 0).toNat = v.toNat / 10 % 10 ∧
      ((bcdDigits v).getD 2 0).toNat = v.toNat % 10 := by
  have hv : v.toNat < 2 ^ 8 := v.isLt
  refine ⟨?hundreds, ?tens, ?ones⟩ <;> exact (BitVec.toNat_ofNat _ 8).trans (Nat.mod_eq_of_lt (by omega))

/-- Settles O31: the store is of the three digits, and its span is in range. -/
theorem storeBcdResult : Obligations.StoreBcdResult := by
  intro x s hc hI
  have hexec := exec_ldBVx_in_range x hI
  obtain ⟨hhundreds, htens, hones⟩ := toNat_getD_bcdDigits (s.getV x)
  have hstored : Frame { bytes := span s.I 3 } s (s.storeBytes s.I (bcdDigits (s.getV x))) :=
    frame_storeBytes hc (by rw [length_bcdDigits]; omega) (List.Subset.refl _)
  have hread {k : Nat} (hk : k < 3) := congrArg BitVec.toNat (readByte_of_exec_ldBVx hc hI hexec hk)
  exact ⟨_, hexec, (hread (k := 0) (by decide)).trans hhundreds, (hread (k := 1) (by decide)).trans htens,
    (hread (k := 2) (by decide)).trans hones, rfl, rfl, hstored.trans (frame_reply _ _ .none)⟩

/-- Settles O32: the store is of V0..Vx, and its span is in range. -/
theorem registerDumpResult : Obligations.RegisterDumpResult := by
  intro x s hc hI
  have hexec := exec_ldMemVx_in_range x hI
  have hlen : (s.regsUpTo x).length = x.val + 1 := length_regsUpTo s x
  have hstored : Frame { bytes := span s.I (x.val + 1) } s (s.storeBytes s.I (s.regsUpTo x)) :=
    frame_storeBytes hc (by omega) (by rw [hlen]; exact List.Subset.refl _)
  exact ⟨_, hexec, fun r hr => readByte_of_exec_ldMemVx hc hI hexec hr, rfl, rfl, hstored.trans (frame_reply _ _ .none)⟩

/-- Settles O33: the registers up to x are the bytes from I on, and the others are kept. -/
theorem registerLoadResult : Obligations.RegisterLoadResult := by
  intro x s hI
  have hloaded : Frame { regs := (List.finRange 16).filter (· ≤ x) } s (s.loadRegs s.I x) :=
    frame_loadRegs (fun r hr => by simpa using hr) s s.I
  have hpc : ((s.loadRegs s.I x).reply .none).pc = s.pc := by rw [State.reply_pc, State.loadRegs_pc]
  refine ⟨_, exec_ldVxMem_in_range x hI, fun r hr => ?_, hpc, rfl, hloaded.trans (frame_reply _ _ .none)⟩
  rw [State.getV_reply, State.getV_loadRegs, if_pos hr]

end Sys2Proof.Machine
end

section
/-! The display instructions (44_display.md R140-R146): the blit that `DRW` makes, pixel by pixel, then what each instruction
leaves. -/

namespace Sys2Proof.Machine

theorem frame_disp {k : Touched} (hk : k.disp = true) (s : State) (d : Display) : Frame k s { s with disp := d } where
  __ := Frame.refl k s
  disp h := absurd (h.symm.trans hk) Bool.false_ne_true

theorem flagByte_eq_one_iff (c : Bool) : flagByte c = 1 ↔ c = true := by
  cases c <;> decide

/-! ### The blit of `DRW` -/

/-- The display and the collision after `DRW Vx, Vy, n`, its operands as the registers hold them before the draw (R141). -/
def spriteBlit (x y : Reg) (n : Nat) (s : State) : Blit :=
  s.disp.drawSprite (s.getV x).toNat (s.getV y).toNat (s.readBytes s.I n)

/-- No row, no draw (decision D13). -/
theorem spriteBlit_zero (x y : Reg) (s : State) : spriteBlit x y 0 s = ⟨s.disp, false⟩ := rfl

/-- The pixels that the rows read from I on light are those of R142. -/
theorem litRow_readBytes_iff_spriteLit (s : State) (x y : Reg) (n : Nat) (px : Fin 64) (py : Fin 32) :
    (∃ m, ∃ h : m < (s.readBytes s.I n).length, ((s.getV y).toNat + 0 + m) % 32 = py.val ∧
      litRow (s.getV x).toNat (s.readBytes s.I n)[m] px = true) ↔ spriteLit s x y n px py := by
  simp only [litRow_iff, State.readBytes, List.length_map, List.length_range, List.getElem_map, List.getElem_range,
    Nat.add_zero]
  constructor
  · rintro ⟨k, hk, hrow, j, hj, hcol, hbit⟩
    exact ⟨k, hk, j, hj, hcol, hrow, hbit⟩
  · rintro ⟨k, hk, j, hj, hcol, hrow, hbit⟩
    exact ⟨k, hk, hrow, j, hj, hcol, hbit⟩

section
variable {n : Nat} (hn : n ≤ 15) (x y : Reg) (s : State)
include hn

theorem length_readBytes_le_32 : (s.readBytes s.I n).length ≤ 32 := by
  rw [State.readBytes, List.length_map, List.length_range]
  omega

/-- The rows invert the pixels they light, no two rows on one display row (R142, R143). -/
theorem pixel_spriteBlit (px : Fin 64) (py : Fin 32) [Decidable (spriteLit s x y n px py)] :
    (spriteBlit x y n s).disp.pixel px py = (s.disp.pixel px py ^^ decide (spriteLit s x y n px py)) := by
  rw [spriteBlit, Display.drawSprite, (Blit.spriteRows_spec _ _ _ 0 _ (length_readBytes_le_32 hn s)).1,
    decide_eq_decide.2 (litRow_readBytes_iff_spriteLit s x y n px py)]

/-- The test of each row against the display so far is a test against the display before the draw (R144). -/
theorem hit_spriteBlit_iff :
    (spriteBlit x y n s).hit = true ↔ ∃ px py, spriteLit s x y n px py ∧ s.disp.pixel px py = true := by
  rw [spriteBlit, Display.drawSprite, (Blit.spriteRows_spec _ _ _ 0 _ (length_readBytes_le_32 hn s)).2]
  simp only [litRow_readBytes_iff_spriteLit, Bool.false_eq_true, false_or]

end

/-! ### What a draw leaves -/

/-- How `DRW` ends, for any display and flag. -/
theorem redraw_flagged_spec (d : Display) (flag : Byte) (s : State) :
    ∃ t, redraw ({ s with disp := d }.setV VF flag) = .next t ∧ t.disp = d ∧ t.getV VF = flag ∧ t.pc = s.pc ∧
      t.report = some (.ok (.redraw t.disp)) ∧ Frame { regs := [VF], disp := true } s t :=
  ⟨_, redraw_eq _, rfl, State.getV_setV_same _ VF flag, rfl, rfl,
    ((frame_disp rfl s d).trans (frame_setV (List.mem_singleton.2 rfl) _ flag)).trans (frame_reply _ _ _)⟩

/-- `DRW` in range leaves the blit's display, and its collision in VF (R141, R145, R146). -/
theorem exec_drw_spec (x y : Reg) {n : Nat} {s : State} (h : n = 0 ∨ s.I.toNat + n - 1 ≤ 0xFFF) :
    ∃ t, exec (.drw x y n) s = .next t ∧ t.disp = (spriteBlit x y n s).disp ∧
      t.getV VF = flagByte (spriteBlit x y n s).hit ∧ t.pc = s.pc ∧ t.report = some (.ok (.redraw t.disp)) ∧
      Frame { regs := [VF], disp := true } s t := by
  rw [exec_drw_in_range x y n h]
  exact redraw_flagged_spec (spriteBlit x y n s).disp _ s

/-- The sprite and its place are the same after a draw that does not write its coordinates. -/
theorem spriteLit_congr_of_frame {s t : State} (hframe : Frame { regs := [VF], disp := true } s t) {x y : Reg}
    (hx : x ≠ VF) (hy : y ≠ VF) (n : Nat) (px : Fin 64) (py : Fin 32) :
    spriteLit t x y n px py ↔ spriteLit s x y n px py := by
  have hkept {r : Reg} (hr : r ≠ VF) : t.getV r = s.getV r := hframe.regs r (mt List.mem_singleton.1 hr)
  have hbyte (a : Nat) : t.readByte a = s.readByte a := hframe.bytes a List.not_mem_nil
  simp only [spriteLit, hkept hx, hkept hy, hframe.index rfl, hbyte]

/-! ### The obligations -/

/-- Settles O37: the blit's pixels. -/
theorem drawInvertsPixelsUnderTheSprite : Obligations.DrawInvertsPixelsUnderTheSprite := by
  intro x y n s hn hrange
  obtain ⟨t, hexec, hdisp, -⟩ := exec_drw_spec x y hrange
  refine ⟨t, hexec, fun px py => ?_⟩
  classical
  rw [hdisp, pixel_spriteBlit hn]
  constructor <;> intro hlit
  · rw [decide_eq_true hlit, Bool.xor_true]
  · rw [decide_eq_false hlit, Bool.xor_false]

/-- Settles O38: VF is the blit's collision. -/
theorem drawReportsCollision : Obligations.DrawReportsCollision := by
  intro x y n s hn hrange
  obtain ⟨t, hexec, -, hflag, -⟩ := exec_drw_spec x y hrange
  refine ⟨t, hexec, fun hmet => ?met, fun hnone => ?none⟩
  case met => rw [hflag, (hit_spriteBlit_iff hn x y s).2 hmet]; rfl
  case none => rw [hflag, Bool.eq_false_iff.2 (mt (hit_spriteBlit_iff hn x y s).1 hnone)]; rfl

/-- Settles O40: the frame is the end's; with no row the blit is the display itself and no collision. -/
theorem drawFrame : Obligations.DrawFrame := by
  intro x y n s hrange
  obtain ⟨t, hexec, hdisp, hflag, hpc, hreport, hframe⟩ := exec_drw_spec x y hrange
  refine ⟨t, hexec, hpc, hreport, hframe, ?_⟩
  rintro rfl
  rw [spriteBlit_zero] at hdisp hflag
  exact ⟨hdisp, hflag⟩

/-- Settles O41: the second draw has the same sprite at the same place, so it inverts the same pixels again, and meets those lit
that the first found dark. -/
theorem drawTwiceRestoresTheDisplay : Obligations.DrawTwiceRestoresTheDisplay := by
  intro x y n s t u hn hrange hx hy hst htu
  obtain ⟨t', hexec, hdisp, -, -, -, hframe⟩ := exec_drw_spec x y hrange
  obtain rfl : t' = t := Host.Outcome.next.inj (hexec.symm.trans hst)
  obtain ⟨u', hexec', hdisp', hflag', -⟩ := exec_drw_spec x y (s := t') (by rwa [hframe.index rfl])
  obtain rfl : u' = u := Host.Outcome.next.inj (hexec'.symm.trans htu)
  have hsame := spriteLit_congr_of_frame hframe hx hy n
  classical
  constructor
  · refine Display.ext_pixel _ _ fun px py => ?_
    rw [hdisp', pixel_spriteBlit hn, hdisp, pixel_spriteBlit hn, decide_eq_decide.2 (hsame px py), Bool.xor_assoc,
      Bool.xor_self, Bool.xor_false]
  · rw [hflag', flagByte_eq_one_iff, hit_spriteBlit_iff hn]
    refine exists_congr fun px => exists_congr fun py => ?_
    rw [hsame px py, hdisp, pixel_spriteBlit hn]
    refine and_congr_right fun hlit => ?_
    rw [decide_eq_true hlit, Bool.xor_true, Bool.not_eq_true']

/-- Settles O36: every pixel of the blank display is off. -/
theorem clearScreenResult : Obligations.ClearScreenResult := fun s =>
  ⟨_, redraw_eq _, Display.pixel_blank, rfl, rfl, (frame_disp rfl s Display.blank).trans (frame_reply _ _ _)⟩

/-- Settles O39: the snapshot is the display that the draw leaves. -/
theorem drawReturnsTheDisplay : Obligations.DrawReturnsTheDisplay := by
  intro x y n s hrange
  obtain ⟨t, hexec, -, -, -, hreport, -⟩ := exec_drw_spec x y hrange
  exact ⟨t, hexec, hreport⟩

end Sys2Proof.Machine
end

section
/-! Keypad, timers and the wait (45_keypad_timer.md R150-R156): the frames of the updates, then the key skips, the timer moves, and
the wait that a delivered key ends. -/

namespace Sys2Proof.Machine

/-! ### Frames -/

theorem frame_DT {k : Touched} (hk : k.delay = true) (s : State) (v : Byte) : Frame k s { s with DT := v } where
  __ := Frame.refl k s
  delay h := absurd (h.symm.trans hk) Bool.false_ne_true

theorem frame_ST {k : Touched} (hk : k.sound = true) (s : State) (v : Byte) : Frame k s { s with ST := v } where
  __ := Frame.refl k s
  sound h := absurd (h.symm.trans hk) Bool.false_ne_true

theorem frame_run {k : Touched} (hk : k.run = true) (s : State) (r : RunState) : Frame k s { s with run := r } where
  __ := Frame.refl k s
  run h := absurd (h.symm.trans hk) Bool.false_ne_true

/-! ### Key skips -/

/-- `done_skipIf_spec` with the outcomes named by the condition whose failure skips (R151). -/
theorem done_skipIf_not (s : State) (c : Bool) :
    ∃ t, done (s.skipIf (!c)) = .next t ∧ t.pc = (if c then s.pc else s.pc + 2) ∧ t.report = some (.ok .none) ∧
      Frame {} s t := by
  simpa only [Bool.not_eq_true', ← Bool.not_eq_true, ite_not] using done_skipIf_spec s (!c)

/-- Settles O42: with a hex key each is a skip on the key's bit, and with another value the key test of either faults. -/
theorem keySkipResults : Obligations.KeySkipResults := by
  refine fun x s => ⟨fun hkey => ⟨?skp, ?sknp⟩, fun hkey i hi => ?illegal⟩
  case skp =>
    rw [exec_skp_legal x hkey]
    exact done_skipIf_spec s _
  case sknp =>
    rw [exec_sknp_legal x hkey]
    exact done_skipIf_not s _
  case illegal =>
    obtain rfl | rfl := hi
    · exact skipOnKey_illegal s (.skp x) x (fun held => held) hkey
    · exact skipOnKey_illegal s (.sknp x) x (fun held => !held) hkey

/-! ### Timer moves -/

/-- Settles O43: each writes one register or one timer, and that alone. -/
theorem timerMoveResults : Obligations.TimerMoveResults := by
  refine fun x s => ⟨?loadDelay, ?storeDelay, ?storeSound⟩
  case loadDelay => exact done_setV_spec x s.DT s
  case storeDelay => exact ⟨_, done_eq _, rfl, rfl, rfl, (frame_DT rfl s (s.getV x)).trans (frame_reply _ _ .none)⟩
  case storeSound => exact ⟨_, done_eq _, rfl, rfl, rfl, (frame_ST rfl s (s.getV x)).trans (frame_reply _ _ .none)⟩

/-! ### The wait for a key -/

theorem exec_ldVxK_spec (x : Reg) (s : State) :
    ∃ t, exec (.ldVxK x) s = .next t ∧ t.run = .awaitingKey x ∧ t.pc = s.pc ∧ t.report = some (.ok .awaitKey) ∧
      Frame { run := true } s t :=
  ⟨_, rfl, rfl, rfl, rfl, (frame_run rfl s (.awaitingKey x)).trans (frame_reply _ _ .awaitKey)⟩

theorem State.reply_eq_self {s : State} {e : Effect} (h : s.report = some (.ok e)) : s.reply e = s := by
  rw [State.reply, ← h]

/-- The key that a wait asks for goes to the wait's register, and ends the wait (40_engine_cycle.md R87). -/
theorem deliverKey_awaiting_spec {s : State} {r : Reg} (hr : s.run = .awaitingKey r) (v : Byte) :
    (s.deliverKey v).getV r = v ∧ (s.deliverKey v).run = .running ∧ (s.deliverKey v).pc = s.pc ∧
      (s.deliverKey v).report = s.report ∧ Frame { regs := [r], run := true } s (s.deliverKey v) := by
  rw [deliverKey_awaiting hr]
  exact ⟨State.getV_setV_same s r v, rfl, rfl, rfl,
    (frame_setV (List.mem_singleton.2 rfl) s v).trans (frame_run rfl _ .running)⟩

/-- Settles O44: the wait reports `AwaitKey` already, so the report of a step while waiting is no change. -/
theorem waitForKeyResult : Obligations.WaitForKeyResult := by
  intro x s hissued
  obtain ⟨t, hexec, hrun, hpc, hreport, hframe⟩ := exec_ldVxK_spec x s
  have hidle : step t = .next t := by
    rw [step_awaiting hrun (hframe.issued.trans hissued), State.reply_eq_self hreport]
  refine ⟨t, hexec, hrun, hpc, hreport, hframe, hidle, fun v => ?_⟩
  obtain ⟨hkey, hrun', hpc', hrest⟩ := deliverKey_awaiting_spec hrun v
  exact ⟨hkey, hrun', hpc'.trans hpc, hrest⟩

end Sys2Proof.Machine
end

section
/-! Faults (60_exceptions.md R161-R170): an instruction raises its own error exactly where its check fails, and a step that faults
leaves the state that it fetched from, with the record of the fetch. -/

namespace Sys2Proof.Machine

variable {i : Instr} {s t : State}

/-- Where its check fails, an instruction does nothing but raise the error of the check. -/
theorem exec_of_ownError_some {e : ExecutionError} (h : ownError i s = some e) : exec i s = raiseIn i e s := by
  cases i with
  | call nnn =>
    obtain ⟨hfull, ⟨⟩⟩ := Option.ite_none_right_eq_some.1 h
    exact callTo_full s _ _ (congrArg Fin.val hfull)
  | ret =>
    obtain ⟨hempty, ⟨⟩⟩ := Option.ite_none_right_eq_some.1 h
    exact returnFrom_empty s _ (congrArg Fin.val hempty)
  | drw _ _ _ =>
    obtain ⟨hout, ⟨⟩⟩ := Option.ite_none_right_eq_some.1 h
    rw [exec, execDrw]
    exact checkRange_fail s _ _ (outOfRange_eq_true.2 hout)
  | ldBVx _ | ldMemVx _ | ldVxMem _ =>
    obtain ⟨hout, ⟨⟩⟩ := Option.ite_none_right_eq_some.1 h
    simp only [exec, execLdBVx, execLdMemVx, execLdVxMem]
    exact checkRange_fail s _ _ (outOfRange_succ_eq_true.2 hout)
  | skp x | sknp x =>
    obtain ⟨hkey, ⟨⟩⟩ := Option.ite_none_right_eq_some.1 h
    simp only [exec, execSkp, execSknp]
    exact skipOnKey_illegal s _ x _ hkey
  | _ => exact nomatch h

/-- Where its check passes, an instruction that the machine runs leaves the run state, or it is `LD Vx, K` and waits. -/
theorem exec_of_ownError_none (hr : s.run = .running) (h : ownError i s = none) :
    ∃ t, exec i s = .next t ∧ ∀ f, t.run ≠ .faulted f := by
  by_cases hwait : ∃ x, i = .ldVxK x
  · obtain ⟨x, rfl⟩ := hwait
    obtain ⟨t, hexec, hrun, -⟩ := exec_ldVxK_spec x s
    exact ⟨t, hexec, by rw [hrun]; exact nofun⟩
  · push Not at hwait
    obtain ⟨t, hexec⟩ := (exec_ends i s).exists_next
    have hrun : t.run = .running := ((exec_onlyWrites hexec).run hwait h).trans hr
    exact ⟨t, hexec, by rw [hrun]; exact nofun⟩

/-- Settles O13: the check that `ownError` names is the one that the instruction makes, and no other instruction faults. -/
theorem ownErrorsExactlyWhenChecked : Obligations.OwnErrorsExactlyWhenChecked := fun _ _ =>
  ⟨fun _ h => exec_of_ownError_some h, fun h hr => exec_of_ownError_none hr h⟩

/-! ### A step that faults -/

theorem runAfter_running_ne_faulted (i : Instr) (f : FaultRecord) : runAfter i .running ≠ .faulted f := by
  cases i <;> exact nofun

/-- A fault of an engine cycle from Running is fault entry on the state fetched from, advanced unless the fetch failed, with the
fetch address and the word fetched (R162, R163). -/
theorem engineStep_fault {f : FaultRecord} (hr : s.run = .running) (h : engineStep s = .next t) (hfault : t.run = .faulted f) :
    ∃ e, t = (if s.fetchWord = none then s else s.advance).raise e s.pc s.fetchWord := by
  obtain ⟨-, hf, he⟩ | ⟨op, e, -, hf, -, he⟩ | ⟨op, i, -, hf, hd, he⟩ | ⟨r, hr', -⟩ | ⟨f, hr', -⟩ := engineStep_cases s
  · rw [hf, if_pos rfl]
    exact ⟨_, (Host.Outcome.next.inj (he.symm.trans h)).symm⟩
  · rw [hf, if_neg (Option.some_ne_none op)]
    exact ⟨_, (Host.Outcome.next.inj (he.symm.trans h)).symm⟩
  · obtain ⟨e, rfl⟩ | ⟨hrun, -⟩ := exec_cases (he.symm.trans h)
    · rw [hf, if_neg (Option.some_ne_none op), ← (encodes_of_decodeWord hd).1, State.advance_pc, BitVec.add_sub_cancel]
      exact ⟨e, rfl⟩
    · rw [State.advance_run, hr] at hrun
      exact absurd (hrun.symm.trans hfault) (runAfter_running_ne_faulted i f)
  · exact nomatch hr.symm.trans hr'
  · exact nomatch hr.symm.trans hr'

/-- Settles O12: fault entry writes the run state and the report alone, and its record is that of the fetch. -/
theorem faultsArePrecise : Obligations.FaultsArePrecise := by
  intro s t f hr hi h hfault
  obtain ⟨e, rfl⟩ := engineStep_fault hr ((step_running hr hi).symm.trans h) hfault
  obtain rfl := RunState.faulted.inj hfault
  refine ⟨rfl, rfl, ?_⟩
  split <;> rfl

end Sys2Proof.Machine
end

section
/-! The host's operations on the timers, the mask and the key, in every run state (60_exceptions.md R172, 40_engine_cycle.md R86,
R87). -/

namespace Sys2Proof.Machine

variable {s : State}

theorem decrementTimers_not_faulted (h : s.run.isFaulted = false) :
    s.decrementTimers = { s with DT := countDown s.DT, ST := countDown s.ST } := by
  rw [State.decrementTimers, h]
  rfl

theorem setKeypad_not_faulted (h : s.run.isFaulted = false) (m : Word) : s.setKeypad m = { s with keypad := m } := by
  rw [State.setKeypad, h]
  rfl

theorem decrementTimers_spec (h : s.run.isFaulted = false) :
    s.decrementTimers.DT.toNat = s.DT.toNat - 1 ∧ s.decrementTimers.ST.toNat = s.ST.toNat - 1 ∧
      s.decrementTimers.pc = s.pc ∧ s.decrementTimers.report = s.report ∧
      Frame { delay := true, sound := true } s s.decrementTimers := by
  rw [decrementTimers_not_faulted h]
  exact ⟨toNat_countDown s.DT, toNat_countDown s.ST, rfl, rfl, (frame_DT rfl s (countDown s.DT)).trans (frame_ST rfl _ _)⟩

/-- Settles O45: outside Faulted the timers and the mask are written, a wait takes the key, and a key without a wait is stray. -/
theorem hostOperationResults : Obligations.HostOperationResults := by
  refine fun s m v => ⟨fun h => ⟨decrementTimers_spec h, setKeypad_not_faulted h m⟩, fun r hr => deliverKey_awaiting hr v,
    fun hr => deliverKey_stray (by rw [hr]; exact nofun) v, fun h => ?faulted⟩
  case faulted =>
    obtain ⟨f, hr⟩ := (RunState.isFaulted_eq_true_iff s.run).1 h
    exact ⟨decrementTimers_faulted hr, setKeypad_faulted hr m, deliverKey_stray (by rw [hr]; exact nofun) v⟩

end Sys2Proof.Machine
end

section
/-! Reset and loading (70_reset_and_hazards.md): a load is one store of the image at 0x200 into the state after reset, so the
rules of `storeBytes` say what it leaves. -/

namespace Sys2Proof.Machine

/-! ### The block that a load makes -/

theorem newBlock_eq_storeBytes {p : List Byte} (h : p.length ≤ 3584) : newBlock p = .ok (State.reset.storeBytes 0x200 p) :=
  newBlock_ok p h

/-- A load that succeeds had an image that fits, and is the store of that image (R180, R181). -/
theorem length_le_and_eq_of_newBlock_ok {p : List Byte} {s : State} (h : newBlock p = .ok s) :
    p.length ≤ 3584 ∧ s = State.reset.storeBytes 0x200 p := by
  by_cases hp : p.length ≤ 3584
  · exact ⟨hp, Except.ok.inj (h.symm.trans (newBlock_eq_storeBytes hp))⟩
  · exact nomatch h.symm.trans (newBlock_error p (Nat.not_le.1 hp))

/-- Memory after a load: the image from 0x200 on, what reset has there anywhere else (R180). -/
theorem readByte_loaded {p : List Byte} (h : p.length ≤ 3584) (a : Nat) :
    (State.reset.storeBytes 0x200 p).readByte a =
      if 0x200 ≤ a ∧ a < 0x200 + p.length then p.getD (a - 0x200) 0 else State.reset.readByte a :=
  State.readByte_storeBytes State.reset 0x200 p (Nat.add_le_add_left h 0x200) State.reset_mem_wf a

/-- The font table stands at 0 (decision D2), so what memory holds before a load at `a` is byte `a` of the font, or zero. -/
theorem blankByte_eq_getD_font (a : Nat) : blankByte a = font.getD a 0 := if_neg (Nat.not_lt_zero a)

/-- Settles O46: within the limit the image is stored whole from 0x200 on, and beyond it there is no block. -/
theorem newChecksTheSize : Obligations.NewChecksTheSize := by
  intro p
  refine ⟨fun hp => ⟨_, newBlock_eq_storeBytes hp, fun k hk => ?image, fun a ha => ?below⟩, newBlock_error p⟩
  case image =>
    rw [readByte_loaded hp, if_pos (by omega), Nat.add_sub_cancel_left, List.getD_eq_getElem p 0 hk]
  case below => rw [readByte_loaded hp, if_neg (by omega)]

theorem State.reset_stack : ∀ j : Fin 16, State.reset.stack[j] = 0 := by decide

/-- Settles O47: a load writes memory alone, so all the rest is as reset has it. -/
theorem newInitialisesEverything : Obligations.NewInitialisesEverything := by
  intro p s h
  have hcanonical : s.memoryCanonical := newBlock_memoryCanonical h
  obtain ⟨hp, rfl⟩ := length_le_and_eq_of_newBlock_ok h
  refine ⟨fun a _ => ?_, rfl, rfl, State.reset_getV, rfl, rfl, rfl, State.reset_stack, rfl, rfl, rfl, Display.pixel_blank, rfl,
    hcanonical, rfl⟩
  rw [readByte_loaded hp, State.reset_readByte, blankByte_eq_getD_font]

/-! ### The first fetch -/

theorem decodeWord_zero : decodeWord 0 = .error (.invalidOpcode 0) := rfl

theorem State.reset_fetchWord : State.reset.fetchWord = some 0 := rfl

/-- An image of one byte leaves the byte after it zero, so the first word is that byte followed by 0 (R185). -/
theorem fetchWord_loaded_singleton (b : Byte) : (State.reset.storeBytes 0x200 [b]).fetchWord = some (wordOfBytes b 0) := by
  have hp : [b].length ≤ 3584 := by simp
  have hpc : State.reset.pc.toNat ≤ 0xFFE := by decide
  have hfirst : (State.reset.storeBytes 0x200 [b]).readByte 0x200 = b := readByte_loaded hp 0x200
  have hsecond : (State.reset.storeBytes 0x200 [b]).readByte 0x201 = 0 := readByte_loaded hp 0x201
  calc (State.reset.storeBytes 0x200 [b]).fetchWord
      _ = some (wordOfBytes ((State.reset.storeBytes 0x200 [b]).readByte 0x200)
            ((State.reset.storeBytes 0x200 [b]).readByte 0x201)) :=
          fetchWord_in_range (State.reset.storeBytes 0x200 [b]) hpc
      _ = some (wordOfBytes b 0) := by rw [hfirst, hsecond]

/-- Settles O48: the word at 0x200 after reset is 0, which no row of the opcode map selects. -/
theorem resetRunsAnEmptyImage : Obligations.ResetRunsAnEmptyImage := by
  refine ⟨newBlock_ok [] (Nat.zero_le _), State.reset_fetchWord, fun b s h => ?_, ?_⟩
  · obtain ⟨-, rfl⟩ := length_le_and_eq_of_newBlock_ok h
    exact fetchWord_loaded_singleton b
  · rw [step_running rfl rfl, engineStep_fetched rfl State.reset_fetchWord, runWord_error decodeWord_zero]
    rfl

/-! ### `new` taken by a machine -/

/-- A load reads of the machine that takes it no more than the model's own fields that go on. -/
theorem reload_congr {s u : State} (hdraws : u.draws = s.draws) (hissued : u.issued = s.issued)
    (hsource : u.shiftSource = s.shiftSource) (file : Option (List Byte)) : reload file u = reload file s := by
  rcases hl : loadFile file with e | b
  · rw [reload_error hl, reload_error hl]
  · rw [reload_ok hl, reload_ok hl, hdraws, hissued, hsource]

/-- Settles O57: the answer to `new` is that of the load, and the host may always call it. -/
theorem newReplacesTheBlock : Obligations.NewReplacesTheBlock := fun s p =>
  ⟨fun hp => ⟨_, newBlock_eq_storeBytes hp, reload_ok (file := some p) (newBlock_eq_storeBytes hp)⟩,
    fun hp => reload_error (file := some p) (newBlock_error p hp),
    reload_error (s := s) (file := none) rfl,
    fun _ file hdraws hissued hsource => reload_congr hdraws hissued hsource file,
    fun _ _ hi => step_issued hi rfl⟩

end Sys2Proof.Machine
end
